-- ==== Sys2Proof/Word.lean ====
section
/-! DEFINITION. The words of DTMFSYN and the exact numbers its rules compute with. Types only: the operations on
them stand in Machine/Numeric.lean, their readings as real numbers in Machine/Real.lean.

Rule R8 states every formula over the exact reals and rule R7 leaves the format `SampleT` open. No approximation is
made here. Every real number that a rule of files 41 to 44 produces from rational draws, rational frequencies and
natural-number counts is a rational combination of 1 and cosines of rational multiples of π; such numbers are held
exactly, as plain data (log entry 1). -/

namespace Sys2Proof

/-- The small operand field `A` and a symbol code (rules R71, R76). -/
abbrev Byte := BitVec 8

/-- A configuration or status register, `IMM`, and the integer result of a response (rules R29, R30, R71). -/
abbrev Word32 := BitVec 32

/-- A command word (rule R70: "Every command is one 64-bit word"). -/
abbrev CmdWord := BitVec 64

/-- The state of the random source, `RngState` (rule R24). The spec leaves the type open; the model numbers the
states (log entry 4). -/
abbrev RngState := Nat

/-- An angle in radians, held exactly as a rational multiple of π: the angle is `π × halfTurns`. Phases
(rule R103: `2π·u`) and the arguments of every cosine of rules R102 and R122 have this form. -/
structure Angle where
  halfTurns : Rat
deriving DecidableEq, Repr, Inhabited

/-- A sample, a gain or a unit draw (`SampleT`), held exactly: the number is
`const + Σ c × cos(π × a)` over the pairs `(c, a)` of `cosines`. -/
structure Sample where
  const : Rat
  cosines : List (Rat × Rat)
deriving DecidableEq, Repr, Inhabited

/-- What the host can put on the float input port beside a command (rule R28). Rules R161 and R165 speak of values
that are "not a finite number", which a float format has and the reals have not; they are kept as three named values
so that rule R165's fault can be stated. A finite value is rational (log entry 2). -/
inductive FloatIn where
  | finite (s : Rat)
  | posInf
  | negInf
  | nan
deriving DecidableEq, Repr, Inhabited

/-- One entry of the Tone Table: the low tone and the high tone in Hz (rule R26). -/
structure TonePair where
  lo : Rat
  hi : Rat
deriving DecidableEq, Repr, Inhabited

end Sys2Proof
end

