-- ==== Sys2Proof/Config.lean ====
section
/-! DEFINITION. What the spec fixes once and for all, and the open parameters of rule R7 and of
92_eei_decisions.md section 3. An open parameter is an opaque constant with no body: no proof can see its value, so a
theorem holds for every choice of it. -/

namespace Sys2Proof

/-- The first value that no 32-bit count holds, 2^32: `IDX_W` of rule R7, and the value at which `osc.n` has run out
(rules R22, R107). -/
def Config.idxLimit : Nat := 4294967296

/-- `B_MAX` of rule R7: the largest legal bit depth. -/
def Config.bMax : Nat := 32

/-- `ROLL_DEFAULT` of rule R7, the reset value of `RON` and `ROFF` (log entry 5). -/
opaque Config.rollDefault : Word32

/-- `RNG_SEED` of rules R7 and R141: the state a seed gives (log entry 4). -/
opaque Config.rngSeed : Word32 → RngState

/-- The open generator behind `RNG_UNIT`: any rational and any next state (log entry 4). -/
opaque Config.rngStep : RngState → Rat × RngState

/-- `RNG_UNIT` of rules R7 and R141: one draw, a value `u` with `0 ≤ u < 1` and the advanced state. The value is the
fractional part of what the open generator gives, which is that value itself whenever it lies in [0, 1); so every
generator that meets the rule's one constraint is covered, and the constraint holds by construction. -/
def Config.rngUnit (r : RngState) : Rat × RngState :=
  ((Config.rngStep r).1 - ((Config.rngStep r).1.floor : Rat), (Config.rngStep r).2)

/-- `RNG_RESET` of rule R7: the state of the random source after the k-th hardware reset. Rule R36: "two resets need
not give the same state", hence an argument (log entry 6). -/
opaque Config.rngReset : Nat → RngState

/-- The open parameter `TONE_TABLE` of rules R7 and R101 (log entry 3). -/
opaque Config.toneParam : Vector TonePair 16

/-- The one constraint a model may assume of a tone pair: both frequencies positive (rule R101). A pair that meets it
is left as it is. -/
def Config.positivePair (p : TonePair) : TonePair :=
  { lo := if 0 < p.lo then p.lo else 1, hi := if 0 < p.hi then p.hi else 1 }

/-- The contents of the Tone Table, `TONE_TABLE`, in the order of the alphabet (`0`-`9`, `A`-`D`, `*`, `#`). -/
def Config.toneTable : Vector TonePair 16 := Config.toneParam.map Config.positivePair

/-- The standard DTMF assignment, rule R101's default ("[from general knowledge, not in source]"), in the order of
the alphabet. No rule rests on it: it is here for tests and for claims that name it (log entry 3). -/
def Config.toneDefault : Vector TonePair 16 :=
  #v[⟨941, 1336⟩, ⟨697, 1209⟩, ⟨697, 1336⟩, ⟨697, 1477⟩, ⟨770, 1209⟩, ⟨770, 1336⟩, ⟨770, 1477⟩, ⟨852, 1209⟩,
     ⟨852, 1336⟩, ⟨852, 1477⟩, ⟨697, 1633⟩, ⟨770, 1633⟩, ⟨852, 1633⟩, ⟨941, 1633⟩, ⟨941, 1209⟩, ⟨941, 1477⟩]

end Sys2Proof
end

