-- ==== Sys2Proof/Syntax.lean ====
section
/-! DEFINITION. The commands of DTMFSYN as an inductive type, one constructor per row of spec/opcode_table.json
(rule R73), and the two pseudo-commands of rule R85. An operand the rules use as a number is a natural number here
(rules R9, R75); its width is a check of WellFormed.lean. -/

namespace Sys2Proof

/-- A command (rule R72). The float operand of `QNT` is not part of the command word (rule R71): it is on the port. -/
inductive Instr where
  /-- `OSC.START 'c', rate`: symbol code and sample rate (rule R103). -/
  | oscStart (sym : Byte) (rate : Nat)
  /-- `OSC.NEXT` (rule R105). -/
  | oscNext
  /-- `ENV.START N` (`uo = false`) and `ENV.START N, ROFF` (`uo = true`) (rule R121). -/
  | envStart (uo : Bool) (n : Nat)
  /-- `ENV.NEXT` (rule R125). -/
  | envNext
  /-- `NSE.NEXT` (rule R143). -/
  | nseNext
  /-- `RNG.DRAW` (rule R144). -/
  | rngDraw
  /-- `RNG.SEED seed` (rule R145). -/
  | rngSeed (seed : Word32)
  /-- `QNT B, s`: bit depth; `s` is on the float input port (rule R161). -/
  | qnt (depth : Nat)
  /-- `WRC reg, value`: register index and value (rule R176). -/
  | wrc (reg : Nat) (value : Word32)
  /-- `RDC reg`: register index (rule R177). -/
  | rdc (reg : Nat)
  /-- `CLR` (rule R179). -/
  | clr
deriving DecidableEq, Repr

/-- Why a word is no command (rules R80, R81), or why bytes are no word. Every one of the first four is the fault
`E_ILLEGAL` when the word is presented; the last is not a property of a word. -/
inductive Reject where
  /-- `OP` is in no row of rule R72. -/
  | unassignedOp
  /-- A bit of the field `Z` is set (rule R80). -/
  | nonzeroZ
  /-- A must-be-zero bit of the field `A` is set (rule R80). -/
  | nonzeroA
  /-- A bit of `IMM` is set in a command that has no use for it (rule R80). -/
  | nonzeroImm
  /-- Fewer than the eight bytes of a command word (rule R70). -/
  | shortWord
deriving DecidableEq, Repr

/-- The pseudo-commands of rule R85. -/
inductive Pseudo where
  | roll (r : Word32)
  | qnt16
deriving DecidableEq, Repr

/-- Rule R85's expansions: `ROLL r` is `WRC RON, r` then `WRC ROFF, r`; `QNT16 s` is `QNT 16, s`. -/
def Pseudo.expand : Pseudo → List Instr
  | .roll r => [.wrc 1 r, .wrc 2 r]
  | .qnt16 => [.qnt 16]

end Sys2Proof
end

