-- ==== Sys2Proof/WellFormed.lean ====
section
/-! DEFINITION. Which terms of `Instr` are commands: every numeric operand fits its field of rule R71 (`A` is 8 bits,
`IMM` is 32 bits). Whether a well-formed command then faults is its own rule's affair (rule R74). -/

namespace Sys2Proof

/-- The operand fits the field `IMM` (rules R71, R75). -/
def fitsImm (n : Nat) : Bool := decide (n < Config.idxLimit)

/-- The operand fits the field `A` (rule R71). -/
def fitsA (n : Nat) : Bool := decide (n < 256)

/-- The operands of a command fit their fields. -/
def Instr.wellFormed : Instr → Bool
  | .oscStart _ rate => fitsImm rate
  | .oscNext => true
  | .envStart _ n => fitsImm n
  | .envNext => true
  | .nseNext => true
  | .rngDraw => true
  | .rngSeed _ => true
  | .qnt depth => fitsA depth
  | .wrc reg _ => fitsA reg
  | .rdc reg => fitsA reg
  | .clr => true

end Sys2Proof
end

