-- ==== Sys2Proof/Decode.lean ====
section
/-! DEFINITION. From words to commands and back: the fields of format `C` (rule R71), the decoder (rules R73, R74,
R80, R81), the encoder, the table of match and mask values (rule R73), the byte order of a serialised word
or response integer (rule R52), and the written form of a command (rule R84). -/

namespace Sys2Proof

/-- `OP`, bits 63:56. -/
def fieldOp (w : CmdWord) : Byte := w.extractLsb' 56 8

/-- `A`, bits 55:48. -/
def fieldA (w : CmdWord) : Byte := w.extractLsb' 48 8

/-- `Z`, bits 47:32. -/
def fieldZ (w : CmdWord) : BitVec 16 := w.extractLsb' 32 16

/-- `IMM`, bits 31:0. -/
def fieldImm (w : CmdWord) : Word32 := w.extractLsb' 0 32

/-- Accept `w` as `i` if every field the command has no use for is 0 (rule R80): `Z`; the bits of `A` in `aZero`; and
`IMM` when `immZero`. -/
def checked (w : CmdWord) (aZero : Byte) (immZero : Bool) (i : Instr) : Except Reject Instr :=
  if fieldZ w ≠ 0#16 then .error .nonzeroZ
  else if fieldA w &&& aZero ≠ 0#8 then .error .nonzeroA
  else if immZero && fieldImm w != 0#32 then .error .nonzeroImm
  else .ok i

/-- The decoder. Total, and a function of the word alone (rule R74); every opcode not in the table of rule R72 is
rejected (rule R81). -/
def decode (w : CmdWord) : Except Reject Instr :=
  if fieldOp w = 0x10#8 then checked w 0x00#8 false (.oscStart (fieldA w) (fieldImm w).toNat)
  else if fieldOp w = 0x11#8 then checked w 0xFF#8 true .oscNext
  else if fieldOp w = 0x20#8 then checked w 0xFE#8 false (.envStart ((fieldA w).getLsbD 0) (fieldImm w).toNat)
  else if fieldOp w = 0x21#8 then checked w 0xFF#8 true .envNext
  else if fieldOp w = 0x30#8 then checked w 0xFF#8 true .nseNext
  else if fieldOp w = 0x31#8 then checked w 0xFF#8 true .rngDraw
  else if fieldOp w = 0x32#8 then checked w 0xFF#8 false (.rngSeed (fieldImm w))
  else if fieldOp w = 0x40#8 then checked w 0x00#8 true (.qnt (fieldA w).toNat)
  else if fieldOp w = 0x50#8 then checked w 0x00#8 false (.wrc (fieldA w).toNat (fieldImm w))
  else if fieldOp w = 0x51#8 then checked w 0x00#8 true (.rdc (fieldA w).toNat)
  else if fieldOp w = 0x52#8 then checked w 0xFF#8 true .clr
  else .error .unassignedOp

/-- A word of format `C` from its fields, with `Z = 0` (rule R71). -/
def formatC (op a : Byte) (imm : Word32) : CmdWord := op ++ a ++ 0#16 ++ imm

/-- The encoder: the word of a well-formed command (rules R72, R73). -/
def encode : Instr → CmdWord
  | .oscStart sym rate => formatC 0x10#8 sym (BitVec.ofNat 32 rate)
  | .oscNext => formatC 0x11#8 0#8 0#32
  | .envStart uo n => formatC 0x20#8 (if uo then 1#8 else 0#8) (BitVec.ofNat 32 n)
  | .envNext => formatC 0x21#8 0#8 0#32
  | .nseNext => formatC 0x30#8 0#8 0#32
  | .rngDraw => formatC 0x31#8 0#8 0#32
  | .rngSeed seed => formatC 0x32#8 0#8 seed
  | .qnt depth => formatC 0x40#8 (BitVec.ofNat 8 depth) 0#32
  | .wrc reg value => formatC 0x50#8 (BitVec.ofNat 8 reg) value
  | .rdc reg => formatC 0x51#8 (BitVec.ofNat 8 reg) 0#32
  | .clr => formatC 0x52#8 0#8 0#32

/-- A row of rule R73's table: a word is the command of a row iff its bits under the mask equal the match value. -/
structure Row where
  mnemonic : String
  matchBits : CmdWord
  mask : CmdWord
deriving DecidableEq, Repr

/-- The table of rule R73 (and spec/opcode_table.json), row for row. -/
def opcodeRows : List Row :=
  [ ⟨"OSC.START", 0x1000000000000000#64, 0xFF00FFFF00000000#64⟩,
    ⟨"OSC.NEXT", 0x1100000000000000#64, 0xFFFFFFFFFFFFFFFF#64⟩,
    ⟨"ENV.START", 0x2000000000000000#64, 0xFFFEFFFF00000000#64⟩,
    ⟨"ENV.NEXT", 0x2100000000000000#64, 0xFFFFFFFFFFFFFFFF#64⟩,
    ⟨"NSE.NEXT", 0x3000000000000000#64, 0xFFFFFFFFFFFFFFFF#64⟩,
    ⟨"RNG.DRAW", 0x3100000000000000#64, 0xFFFFFFFFFFFFFFFF#64⟩,
    ⟨"RNG.SEED", 0x3200000000000000#64, 0xFFFFFFFF00000000#64⟩,
    ⟨"QNT", 0x4000000000000000#64, 0xFF00FFFFFFFFFFFF#64⟩,
    ⟨"WRC", 0x5000000000000000#64, 0xFF00FFFF00000000#64⟩,
    ⟨"RDC", 0x5100000000000000#64, 0xFF00FFFFFFFFFFFF#64⟩,
    ⟨"CLR", 0x5200000000000000#64, 0xFFFFFFFFFFFFFFFF#64⟩ ]

/-- "A word `w` is the command of a row iff `w AND mask = match`" (rule R73). -/
def Row.covers (r : Row) (w : CmdWord) : Bool := w &&& r.mask == r.matchBits

/-- The mnemonic of a command, as the opcode table spells it (rule R72). -/
def Instr.mnemonic : Instr → String
  | .oscStart _ _ => "OSC.START"
  | .oscNext => "OSC.NEXT"
  | .envStart _ _ => "ENV.START"
  | .envNext => "ENV.NEXT"
  | .nseNext => "NSE.NEXT"
  | .rngDraw => "RNG.DRAW"
  | .rngSeed _ => "RNG.SEED"
  | .qnt _ => "QNT"
  | .wrc _ _ => "WRC"
  | .rdc _ => "RDC"
  | .clr => "CLR"

/-- The first `count` bytes of a value written out as bytes, the least significant first (rule R52). -/
def leBytes {width : Nat} (count : Nat) (x : BitVec width) : List Byte :=
  (List.range count).map fun j => x.extractLsb' (8 * j) 8

/-- The eight bytes of a command word (rule R52). -/
def wordBytes (w : CmdWord) : List Byte := leBytes 8 w

/-- The four bytes of a response integer (rule R52). -/
def resultBytes (i : Word32) : List Byte := leBytes 4 i

/-- The word that eight bytes write out, the least significant first (rule R52). -/
def wordOfBytes (b0 b1 b2 b3 b4 b5 b6 b7 : Byte) : CmdWord := b7 ++ b6 ++ b5 ++ b4 ++ b3 ++ b2 ++ b1 ++ b0

/-- The response integer that four bytes write out, the least significant first; none of another number of bytes
(rule R52). -/
def resultOfBytes : List Byte → Option Word32
  | [b0, b1, b2, b3] => some (b3 ++ b2 ++ b1 ++ b0)
  | _ => none

/-- The decoder on a serialised command stream: the first command and the bytes after it (rules R52, R70). -/
def decodeBytes : List Byte → Except Reject (Instr × List Byte)
  | b0 :: b1 :: b2 :: b3 :: b4 :: b5 :: b6 :: b7 :: rest =>
    match decode (wordOfBytes b0 b1 b2 b3 b4 b5 b6 b7) with
    | .ok i => .ok (i, rest)
    | .error r => .error r
  | _ => .error .shortWord

/-- The bytes of a command (rule R52). -/
def encodeBytes (i : Instr) : List Byte := wordBytes (encode i)

/-- The decoder on a word numbered as spec/opcode_table.json numbers it: the 64-bit word itself, whose bits above
`nbits` are 0. -/
def decodeTableWord (nbits w : Nat) : Option Instr :=
  if w % 2 ^ nbits < 2 ^ 64 then
    match decode (BitVec.ofNat 64 (w % 2 ^ nbits)) with
    | .ok i => some i
    | .error _ => none
  else none

/-- A configuration register's name in rule R84's syntax, or its index where it has none. -/
def regName : Nat → String
  | 0 => "CTRL"
  | 1 => "RON"
  | 2 => "ROFF"
  | 3 => "STATUS"
  | 4 => "FCMDL"
  | 5 => "FCMDH"
  | n => toString n

/-- How rule R84 writes a command (its symbol code as an 8-bit number, which the rule allows in place of the quoted
character; the operand `s` of `QNT` is not part of the word and is written by its name). -/
def Instr.written : Instr → String
  | .oscStart sym rate => "OSC.START " ++ toString sym.toNat ++ ", " ++ toString rate
  | .envStart false n => "ENV.START " ++ toString n
  | .envStart true n => "ENV.START " ++ toString n ++ ", ROFF"
  | .rngSeed seed => "RNG.SEED " ++ toString seed.toNat
  | .qnt depth => "QNT " ++ toString depth ++ ", s"
  | .wrc reg value => "WRC " ++ regName reg ++ ", " ++ toString value.toNat
  | .rdc reg => "RDC " ++ regName reg
  | .oscNext => "OSC.NEXT"
  | .envNext => "ENV.NEXT"
  | .nseNext => "NSE.NEXT"
  | .rngDraw => "RNG.DRAW"
  | .clr => "CLR"

end Sys2Proof
end

