-- ==== Sys2Proof/Machine/State.lean ====
section
/-! DEFINITION. The state of DTMFSYN (10_state.md), as plain data: the two instances, the random source, the six
configuration and status registers' storage, the Tone Table, the three ports, and the two fields that are the
model's own (`inbox`, what the host will present; `resets`, the counter behind the unspecified reset state of the
random source). -/

namespace Sys2Proof.Machine

/-- An oscillator instance (rule R22, less `osc.valid`, which is that an instance is there). -/
structure OscInst where
  fLo : Rat
  fHi : Rat
  phiLo : Angle
  phiHi : Angle
  /-- The sample rate in Hz, 1 … 2^32−1. -/
  rate : Nat
  /-- The index of the next sample, 0 … 2^32. -/
  n : Nat
deriving DecidableEq, Repr

/-- An envelope instance (rule R23, less `env.valid`, which is that an instance is there). -/
structure EnvInst where
  /-- `env.N`, the total number of gain values. -/
  total : Nat
  /-- `env.ron`, the latched roll-on length. -/
  ron : Nat
  /-- `env.roff`, the latched roll-off length. -/
  roff : Nat
  /-- `env.d`, the divisor of the release ramp. -/
  d : Nat
  /-- `env.k`, the index of the next gain value, 0 … `env.N`. -/
  k : Nat
deriving DecidableEq, Repr

/-- What the block answers to a command (rule R29): status, float result, integer result. -/
structure Response where
  st : BitVec 4
  f : Sample
  i : Word32
deriving DecidableEq, Repr

/-- One thing the host does to the block (rule R28): present a command word with a float beside it on the `CMD` port,
or assert `RST`. -/
inductive HostEvent where
  | command (word : CmdWord) (fin : FloatIn)
  | assertReset
deriving DecidableEq, Repr

/-- The five faults of rule R220. -/
inductive Cause where
  | illegal
  | invSym
  | badParam
  | noInst
  | idxOvf
deriving DecidableEq, Repr

/-- The six configuration and status registers of rule R30. -/
inductive CfgReg where
  | ctrl
  | ron
  | roff
  | status
  | fcmdl
  | fcmdh
deriving DecidableEq, Repr

/-- Reasons for the machine to stop with a fault. There is none: rule R226's faults are reported in a response and
the block goes on ("it reports the fault in the response and waits for the next command"), and rule R262 has every
command complete. Nobody raises one, which is safe: nothing the spec gives a meaning is stopped. -/
inductive Fault
deriving DecidableEq, Repr

/-- Reasons for the model to give a command no meaning. -/
inductive Refusal where
  /-- Raised by an arm of `exec` whose command has no meaning yet, named as the opcode table names it. Safe: the
  model stops. Every command of the table has its meaning, so no arm raises it. -/
  | notModelled (mnemonic : String)
deriving DecidableEq, Repr

/-- The state of the block and of its ports. -/
structure State where
  /-- The oscillator instance; `osc.valid` is that there is one (rule R22). -/
  osc : Option OscInst
  /-- The envelope instance; `env.valid` is that there is one (rule R23). -/
  env : Option EnvInst
  /-- The state of the random source (rule R24). -/
  rng : RngState
  /-- Register 0x00, `CTRL` (rule R31). -/
  ctrl : Word32
  /-- Register 0x01, `RON` (rule R32). -/
  ron : Word32
  /-- Register 0x02, `ROFF` (rule R33). -/
  roff : Word32
  /-- `STATUS.FAULT`, "the only stored flag" (rule R34). -/
  fault : Bool
  /-- `STATUS.FCAUSE`, the code of the fault that set `FAULT` (rule R34). -/
  fcause : BitVec 4
  /-- Register 0x04, `FCMDL` (rule R35). -/
  fcmdl : Word32
  /-- Register 0x05, `FCMDH` (rule R35). -/
  fcmdh : Word32
  /-- The Tone Table (rule R26), in the order of the alphabet. -/
  tones : Vector TonePair 16
  /-- The `CMD` port: the command word `cmd` (rules R11, R28). -/
  cmd : CmdWord
  /-- The `CMD` port: the float `fin` beside the word (rules R11, R28). -/
  fin : FloatIn
  /-- The `RSP` port: the last response; none before the first response after a reset (rules R28, R29). -/
  rsp : Option Response
  /-- The model's own: what the host will do, in order (rules R6, R56; log entry 7). -/
  inbox : List HostEvent
  /-- The model's own: how many times `RST` has been asserted, the argument of `RNG_RESET` (log entry 6). -/
  resets : Nat
deriving DecidableEq, Repr

/-- The outcome of a command. -/
abbrev Result := Host.Outcome State Fault Refusal

/-- The state right after hardware reset (rule R36). The ports are not state of the block; what they show then is
log entry 8's choice. -/
def State.reset : State :=
  { osc := none
    env := none
    rng := Config.rngReset 0
    ctrl := 0#32
    ron := Config.rollDefault
    roff := Config.rollDefault
    fault := false
    fcause := 0#4
    fcmdl := 0#32
    fcmdh := 0#32
    tones := Config.toneTable
    cmd := 0#64
    fin := .finite 0
    rsp := none
    inbox := []
    resets := 0 }

end Sys2Proof.Machine
end

