-- ==== Sys2Proof/Machine/Flags.lean ====
section
/-! DEFINITION. The codes and the flags: status and fault codes (rule R220), the mode flags of `CTRL` (rule R31) and
the flags of `STATUS` (rule R34). -/

namespace Sys2Proof.Machine

/-- `OK`. -/
def stOk : BitVec 4 := 0x0#4

/-- `END`. -/
def stEnd : BitVec 4 := 0x1#4

/-- `FAULTED`, the refusal given in fault state. -/
def stFaulted : BitVec 4 := 0xF#4

/-- The code of a fault (rule R220). -/
def Cause.code : Cause → BitVec 4
  | .illegal => 0x8#4
  | .invSym => 0x9#4
  | .badParam => 0xA#4
  | .noInst => 0xB#4
  | .idxOvf => 0xC#4

/-- `CTRL.RELDIV`, bit 0 (rule R31). -/
def relDiv (s : State) : Bool := s.ctrl.getLsbD 0

/-- `CTRL.SAT`, bit 1 (rule R31). -/
def satMode (s : State) : Bool := s.ctrl.getLsbD 1

/-- `CTRL` as it reads: the reserved bits 31:2 read as 0 (rule R31). -/
def ctrlWord (s : State) : Word32 := s.ctrl &&& 0x3#32

/-- `STATUS.OSC_V`: `osc.valid`. -/
def oscV (s : State) : Bool := s.osc.isSome

/-- `STATUS.ENV_V`: `env.valid`. -/
def envV (s : State) : Bool := s.env.isSome

/-- `STATUS.ENV_END`: 1 iff an envelope instance is there and `env.k = env.N`. -/
def envEnd (s : State) : Bool :=
  match s.env with
  | some e => decide (e.k = e.total)
  | none => false

/-- `STATUS.OSC_OVF`: 1 iff an oscillator instance is there and `osc.n = 2^32`. -/
def oscOvf (s : State) : Bool :=
  match s.osc with
  | some o => decide (o.n = Config.idxLimit)
  | none => false

/-- `STATUS.FCAUSE` as it reads: "0 when `FAULT = 0`" (rule R34). -/
def causeField (s : State) : BitVec 4 := if s.fault then s.fcause else 0#4

/-- The word `STATUS` reads as (rule R34): bit 0 `FAULT`, 1 `OSC_V`, 2 `ENV_V`, 3 `ENV_END`, 4 `OSC_OVF`, 7:5
reserved, 11:8 `FCAUSE`, 31:12 reserved. -/
def statusWord (s : State) : Word32 :=
  0#20 ++ causeField s ++ 0#3 ++ BitVec.ofBool (oscOvf s) ++ BitVec.ofBool (envEnd s) ++ BitVec.ofBool (envV s)
    ++ BitVec.ofBool (oscV s) ++ BitVec.ofBool s.fault

end Sys2Proof.Machine
end

