-- ==== Sys2Proof/Machine/Numeric.lean ====
section
/-! DEFINITION. The arithmetic of the rules, exact and computable: angles, samples, the cosine, and the integer helpers
of rule R10. Machine/Real.lean reads each of them as the real operation of rule R8, and Laws/Numeric.lean proves that
the two agree. -/

namespace Sys2Proof.Machine

/-- The angle `π·q`. -/
def Angle.piTimes (q : Rat) : Angle := { halfTurns := q }

/-- The angle `2π·q`. -/
def Angle.twoPiTimes (q : Rat) : Angle := { halfTurns := 2 * q }

/-- The sum of two angles. -/
def Angle.add (a b : Angle) : Angle := { halfTurns := a.halfTurns + b.halfTurns }

/-- The rational number `q` as a sample. -/
def Sample.ofRat (q : Rat) : Sample := { const := q, cosines := [] }

/-- `x + y`. -/
def Sample.add (x y : Sample) : Sample := { const := x.const + y.const, cosines := x.cosines ++ y.cosines }

/-- `c × x` for a rational `c`. -/
def Sample.scale (c : Rat) (x : Sample) : Sample :=
  { const := c * x.const, cosines := x.cosines.map fun t => (c * t.1, t.2) }

/-- `x / 2`. -/
def Sample.half (x : Sample) : Sample := Sample.scale (1 / 2) x

/-- `cos(π·q)` for `0 ≤ q ≤ 1/2`. It is rational at 0, 1/3 and 1/2 only, and is then that rational. -/
def Sample.cosFirstQuarter (q : Rat) : Sample :=
  if q = 0 then Sample.ofRat 1
  else if q = 1 / 3 then Sample.ofRat (1 / 2)
  else if q = 1 / 2 then Sample.ofRat 0
  else { const := 0, cosines := [(1, q)] }

/-- `cos(π·q)` for `0 ≤ q ≤ 1`, by `cos(π − x) = −cos x`. -/
def Sample.cosHalfTurn (q : Rat) : Sample :=
  if q ≤ 1 / 2 then Sample.cosFirstQuarter q else Sample.scale (-1) (Sample.cosFirstQuarter (1 - q))

/-- The angle's number of half turns less the full turns in it: in [0, 2). -/
def Angle.withinTurn (a : Angle) : Rat := a.halfTurns - 2 * ((a.halfTurns / 2).floor : Rat)

/-- The cosine of an angle (rule R8: "`cos` is the real cosine"), by its period `2π` and `cos(2π − x) = cos x`. -/
def Sample.cos (a : Angle) : Sample :=
  if Angle.withinTurn a ≤ 1 then Sample.cosHalfTurn (Angle.withinTurn a)
  else Sample.cosHalfTurn (2 - Angle.withinTurn a)

/-- `trunc` of rule R10: round toward zero. -/
def trunc (x : Rat) : Int := x.num.tdiv x.den

/-- `wrap_B` of rule R10, with the non-negative remainder. -/
def wrapB (bits : Nat) (q : Int) : Int := (q + 2 ^ (bits - 1)) % 2 ^ bits - 2 ^ (bits - 1)

/-- `sat_B` of rule R10. -/
def satB (bits : Nat) (q : Int) : Int := min (max q (-(2 ^ (bits - 1)))) (2 ^ (bits - 1) - 1)

/-- `sext_32` of rule R10. -/
def sext32 (v : Int) : Word32 := BitVec.ofInt 32 v

end Sys2Proof.Machine
end

