-- ==== Sys2Proof/Machine/Operands.lean ====
section
/-! DEFINITION. The operand forms: a symbol code and the Tone Table entry it names (rules R26, R76, R101), the roll
lengths `ENV.START` takes (rules R32, R33, R78), and a configuration register index (rules R30, R79). -/

namespace Sys2Proof.Machine

/-- The place in the alphabet (`0`-`9`, `A`-`D`, `*`, `#`) of a symbol code; none for the other 240 codes
(rule R76). -/
def symbolIndex (code : Byte) : Option (Fin 16) :=
  if 0x30#8 ≤ code ∧ code ≤ 0x39#8 then some (Fin.ofNat 16 (code.toNat - 0x30))
  else if 0x41#8 ≤ code ∧ code ≤ 0x44#8 then some (Fin.ofNat 16 (code.toNat - 0x41 + 10))
  else if code = 0x2A#8 then some 14
  else if code = 0x23#8 then some 15
  else none

/-- The Tone Table entry of a symbol code (rule R101). -/
def toneOf (code : Byte) (s : State) : Option TonePair := (symbolIndex code).map fun j => s.tones[j]

/-- The roll-on length of `ENV.START`: `RON` (rule R121). -/
def rollOn (s : State) : Nat := s.ron.toNat

/-- The roll-off length of `ENV.START`: `ROFF` when the command's `UO` bit is 1, else the roll-on length
(rules R33, R121). -/
def rollOff (uo : Bool) (s : State) : Nat := if uo then s.roff.toNat else rollOn s

/-- The register a configuration register index names; none for 6 … 255 (rules R30, R51). -/
def cfgReg : Nat → Option CfgReg
  | 0 => some .ctrl
  | 1 => some .ron
  | 2 => some .roff
  | 3 => some .status
  | 4 => some .fcmdl
  | 5 => some .fcmdh
  | _ => none

/-- The two halves of a command word that `FCMDL` and `FCMDH` record (rule R35). -/
def cmdLow (w : CmdWord) : Word32 := w.extractLsb' 0 32

/-- Bits 63:32 of a command word (rule R35). -/
def cmdHigh (w : CmdWord) : Word32 := w.extractLsb' 32 32

end Sys2Proof.Machine
end

