-- ==== Sys2Proof/Machine/Ops.lean ====
section
/-! DEFINITION. The operations every command is made of: the response (rules R11, R29), one draw (rule R11), fault
entry (rule R226) and the return from it (rules R179, R228), the refusal in fault state (rule R227), reading and
writing a configuration register (rules R176, R177), and hardware reset (rules R36, R250). -/

namespace Sys2Proof.Machine

/-- `respond(st, f, i)`: drive the `RSP` port (rules R11, R29). -/
def respond (st : BitVec 4) (f : Sample) (i : Word32) (s : State) : State :=
  { s with rsp := some { st := st, f := f, i := i } }

/-- `respond(st)`, which is `respond(st, 0.0, 0)` (rule R11). -/
def respondBare (st : BitVec 4) (s : State) : State := respond st (Sample.ofRat 0) 0#32 s

/-- `respond(OK)`. -/
def respondOk (s : State) : State := respondBare stOk s

/-- `respond(OK, f, 0)`. -/
def respondFloat (f : Sample) (s : State) : State := respond stOk f 0#32 s

/-- `respond(OK, 0.0, i)`. -/
def respondInt (i : Word32) (s : State) : State := respond stOk (Sample.ofRat 0) i s

/-- The integer of a response written out as bytes, the least significant first (rule R52). -/
def Response.intBytes (r : Response) : List Byte := resultBytes r.i

/-- The unit draw the next `draw()` returns (rule R11). -/
def drawnUnit (s : State) : Rat := (Config.rngUnit s.rng).1

/-- The state after a `draw()`: `rng` advanced once (rules R11, R24). -/
def afterDraw (s : State) : State := { s with rng := (Config.rngUnit s.rng).2 }

/-- `raise E_x`, fault entry (rule R226): the four writes, the response, and nothing else. -/
def raise (c : Cause) (s : State) : State :=
  respondBare (Cause.code c)
    { s with fault := true, fcause := Cause.code c, fcmdl := cmdLow s.cmd, fcmdh := cmdHigh s.cmd }

/-- The return from a fault, which is what `CLR` does (rules R179, R228): both instances and the fault record are
cleared; `rng`, `CTRL`, `RON`, `ROFF` are kept. -/
def returnFromFault (s : State) : State :=
  { s with osc := none, env := none, fault := false, fcause := 0#4, fcmdl := 0#32, fcmdh := 0#32 }

/-- The refusal given in fault state: `FAULTED`, and no state changes (rule R227). -/
def refuse (s : State) : State := respondBare stFaulted s

/-- Rule R230's first check: in fault state the command is refused, whatever it would do. -/
def unlessFaulted (s body : State) : State := if s.fault then refuse s else body

/-- The value of a configuration or status register, `cfg[x]` (rules R11, R30 to R35). -/
def readCfg (r : CfgReg) (s : State) : Word32 :=
  match r with
  | .ctrl => ctrlWord s
  | .ron => s.ron
  | .roff => s.roff
  | .status => statusWord s
  | .fcmdl => s.fcmdl
  | .fcmdh => s.fcmdh

/-- A write of a configuration register, with its checks (rule R176): a reserved bit of `CTRL` faults `E_BADPARAM`,
a read-only register faults `E_ILLEGAL`. -/
def writeCfg (r : CfgReg) (v : Word32) (s : State) : State :=
  match r with
  | .ctrl => if v >>> 2 ≠ 0#32 then raise .badParam s else respondOk { s with ctrl := v }
  | .ron => respondOk { s with ron := v }
  | .roff => respondOk { s with roff := v }
  | .status => raise .illegal s
  | .fcmdl => raise .illegal s
  | .fcmdh => raise .illegal s

/-- Hardware reset by the `RST` port (rules R36, R250): the reset values, the Tone Table unchanged, the random source
in an unspecified state, and no response. What the host presents on `CMD` is the host's and stays. -/
def hardReset (s : State) : State :=
  { State.reset with
    rng := Config.rngReset (s.resets + 1)
    tones := s.tones
    cmd := s.cmd
    fin := s.fin
    inbox := s.inbox
    resets := s.resets + 1 }

/-- The `CMD` port as a command is handed over (rule R28). -/
def latch (word : CmdWord) (fin : FloatIn) (s : State) : State := { s with cmd := word, fin := fin }

/-- A word that is no command (rules R81, R221), after rule R230's first check. -/
def illegalWord (s : State) : State := unlessFaulted s (raise .illegal s)

/-- The host's events less the first (rule R56: in the order the host issues them). -/
def takeEvent (rest : List HostEvent) (s : State) : State := { s with inbox := rest }

end Sys2Proof.Machine
end

