-- ==== Sys2Proof/Machine/Control.lean ====
section
/-! DEFINITION. The control commands (45_control.md): `WRC`, `RDC`, `CLR`. -/

namespace Sys2Proof.Machine

/-- `WRC reg, value` (rules R82, R176). -/
def execWrc (reg : Nat) (value : Word32) (s : State) : Result :=
  .next (unlessFaulted s
    (match cfgReg reg with
    | some r => writeCfg r value s
    | none => raise .illegal s))

/-- `RDC reg` (rules R82, R177, R178): of an assigned register it executes in fault state too. -/
def execRdc (reg : Nat) (s : State) : Result :=
  .next
    (match cfgReg reg with
    | some r => respondInt (readCfg r s) s
    | none => unlessFaulted s (raise .illegal s))

/-- `CLR` (rule R179): "always responds `OK`, in or out of fault state". -/
def execClr (s : State) : Result := .next (respondOk (returnFromFault s))

end Sys2Proof.Machine
end

