-- ==== Sys2Proof/Machine/Envelope.lean ====
section
/-! DEFINITION. The Envelope Shaper (42_envelope.md): `ENV.START`, `ENV.NEXT`. -/

namespace Sys2Proof.Machine

/-- `attack(k) = (cos(π·k / ron) − 1) / 2` (rule R122). -/
def attack (ron k : Nat) : Sample :=
  Sample.half (Sample.add (Sample.cos (Angle.piTimes ((k : Rat) / (ron : Rat)))) (Sample.ofRat (-1)))

/-- `release(j) = (cos(π·j / d) + 1) / 2` (rule R122). -/
def release (d j : Nat) : Sample :=
  Sample.half (Sample.add (Sample.cos (Angle.piTimes ((j : Rat) / (d : Rat)))) (Sample.ofRat 1))

/-- The gain of an instance at the index `k` (rule R123): attack first, then release, else the plateau. The test
`k + roff >= N` is on natural numbers, without wrap-around. -/
def gain (e : EnvInst) (k : Nat) : Sample :=
  if k < e.ron then attack e.ron k
  else if k + e.roff ≥ e.total then release e.d (k + e.roff - e.total)
  else Sample.ofRat 1

/-- The divisor of the release ramp: the roll-off length in corrected mode, else the roll-on length (rules R121,
R128). -/
def releaseDivisor (uo : Bool) (s : State) : Nat := if relDiv s then rollOff uo s else rollOn s

/-- A new instance (rule R121). -/
def envCreate (uo : Bool) (n : Nat) (s : State) : EnvInst :=
  { total := n, ron := rollOn s, roff := rollOff uo s, d := releaseDivisor uo s, k := 0 }

/-- `ENV.START N` and `ENV.START N, ROFF` (rules R121, R129). -/
def execEnvStart (uo : Bool) (n : Nat) (s : State) : Result :=
  .next (unlessFaulted s
    (if 0 < n ∧ 0 < rollOff uo s ∧ releaseDivisor uo s = 0 then raise .badParam s
    else respondOk { s with env := some (envCreate uo n s) }))

/-- `ENV.NEXT` (rules R125, R126): instance before end of sequence. -/
def execEnvNext (s : State) : Result :=
  .next (unlessFaulted s
    (match s.env with
    | none => raise .noInst s
    | some e =>
      if e.k = e.total then respondBare stEnd s
      else respondFloat (gain e e.k) { s with env := some { e with k := e.k + 1 } }))

end Sys2Proof.Machine
end

