-- ==== Sys2Proof/Machine/Noise.lean ====
section
/-! DEFINITION. The Noise Source and the random source (43_noise.md): `NSE.NEXT`, `RNG.DRAW`, `RNG.SEED`. -/

namespace Sys2Proof.Machine

/-- A noise sample from a unit draw: `2·u − 1` (rules R142, R143). -/
def noiseOf (u : Rat) : Rat := 2 * u - 1

/-- `NSE.NEXT` (rule R143). -/
def execNseNext (s : State) : Result :=
  .next (unlessFaulted s (respondFloat (Sample.ofRat (noiseOf (drawnUnit s))) (afterDraw s)))

/-- `RNG.DRAW` (rule R144). -/
def execRngDraw (s : State) : Result :=
  .next (unlessFaulted s (respondFloat (Sample.ofRat (drawnUnit s)) (afterDraw s)))

/-- `RNG.SEED seed` (rule R145). -/
def execRngSeed (seed : Word32) (s : State) : Result :=
  .next (unlessFaulted s (respondOk { s with rng := Config.rngSeed seed }))

end Sys2Proof.Machine
end

