-- ==== Sys2Proof/Machine/Oscillator.lean ====
section
/-! DEFINITION. The Oscillator (41_oscillator.md): `OSC.START`, `OSC.NEXT`. -/

namespace Sys2Proof.Machine

/-- `t = n / rate`, in seconds (rule R102). -/
def sampleTime (rate n : Nat) : Rat := (n : Rat) / (rate : Rat)

/-- `osc_sample` of rule R102: `(cos(2π·f_lo·t + φ_lo) + cos(2π·f_hi·t + φ_hi)) / 2`. -/
def oscSample (fLo fHi : Rat) (phiLo phiHi : Angle) (rate n : Nat) : Sample :=
  Sample.half (Sample.add
    (Sample.cos (Angle.add (Angle.twoPiTimes (fLo * sampleTime rate n)) phiLo))
    (Sample.cos (Angle.add (Angle.twoPiTimes (fHi * sampleTime rate n)) phiHi)))

/-- The sample of an instance at the index `n`. -/
def OscInst.sampleAt (o : OscInst) (n : Nat) : Sample := oscSample o.fLo o.fHi o.phiLo o.phiHi o.rate n

/-- A new instance from a Tone Table entry, two unit draws and a rate (rule R103): each phase is `2π·u`, the index
is 0. -/
def oscCreate (p : TonePair) (uLo uHi : Rat) (rate : Nat) : OscInst :=
  { fLo := p.lo
    fHi := p.hi
    phiLo := Angle.twoPiTimes uLo
    phiHi := Angle.twoPiTimes uHi
    rate := rate
    n := 0 }

/-- The successful `OSC.START` (rule R103): the low tone's draw, then the high tone's, then the new instance. -/
def oscBegin (p : TonePair) (rate : Nat) (s : State) : State :=
  respondOk
    { afterDraw (afterDraw s) with osc := some (oscCreate p (drawnUnit s) (drawnUnit (afterDraw s)) rate) }

/-- `OSC.START 'c', rate` (rules R103, R104): symbol before rate. -/
def execOscStart (sym : Byte) (rate : Nat) (s : State) : Result :=
  .next (unlessFaulted s
    (match toneOf sym s with
    | none => raise .invSym s
    | some p => if rate = 0 then raise .badParam s else oscBegin p rate s))

/-- `OSC.NEXT` (rules R105, R107): instance before index. -/
def execOscNext (s : State) : Result :=
  .next (unlessFaulted s
    (match s.osc with
    | none => raise .noInst s
    | some o =>
      if o.n = Config.idxLimit then raise .idxOvf s
      else respondFloat (o.sampleAt o.n) { s with osc := some { o with n := o.n + 1 } }))

end Sys2Proof.Machine
end

