-- ==== Sys2Proof/Machine/Quantizer.lean ====
section
/-! DEFINITION. The Quantizer (44_quantizer.md): `QNT`. -/

namespace Sys2Proof.Machine

/-- `q = trunc(s × 2^(B−1))`, an unbounded integer (rule R161). -/
def scaled (depth : Nat) (x : Rat) : Int := trunc (x * 2 ^ (depth - 1))

/-- The quantized sample: `sat_B(q)` when `CTRL.SAT` is 1, else `wrap_B(q)` (rules R161, R162, R166). -/
def quantized (sat : Bool) (depth : Nat) (x : Rat) : Int :=
  if sat then satB depth (scaled depth x) else wrapB depth (scaled depth x)

/-- `QNT B, s` (rules R161, R165): bit depth before finiteness. -/
def execQnt (depth : Nat) (s : State) : Result :=
  .next (unlessFaulted s
    (if depth < 1 ∨ Config.bMax < depth then raise .badParam s
    else
      match s.fin with
      | .finite x => respondInt (sext32 (quantized (satMode s) depth x)) s
      | .posInf => raise .badParam s
      | .negInf => raise .badParam s
      | .nan => raise .badParam s))

end Sys2Proof.Machine
end

