-- ==== Sys2Proof/Machine/Dispatch.lean ====
section
/-! DEFINITION. One arm per command: exec, the meaning of a decoded command (rule R72). -/

namespace Sys2Proof.Machine

def exec (i : Instr) (s : State) : Host.Outcome State Fault Refusal :=
  match i with
  | .oscStart sym rate => Sys2Proof.Machine.execOscStart sym rate s
  | .oscNext => Sys2Proof.Machine.execOscNext s
  | .envStart uo n => Sys2Proof.Machine.execEnvStart uo n s
  | .envNext => Sys2Proof.Machine.execEnvNext s
  | .nseNext => Sys2Proof.Machine.execNseNext s
  | .rngDraw => Sys2Proof.Machine.execRngDraw s
  | .rngSeed seed => Sys2Proof.Machine.execRngSeed seed s
  | .qnt depth => Sys2Proof.Machine.execQnt depth s
  | .wrc reg value => Sys2Proof.Machine.execWrc reg value s
  | .rdc reg => Sys2Proof.Machine.execRdc reg s
  | .clr => Sys2Proof.Machine.execClr s

end Sys2Proof.Machine
end

