-- ==== Sys2Proof/Machine/Step.lean ====
section
/-! DEFINITION. One step: the block takes the next thing the host does and executes it to completion (rules R6, R56,
R230, R250, R262). -/

namespace Sys2Proof.Machine

/-- A command presented on the `CMD` port, executed to completion: decoded and executed, or `E_ILLEGAL` if it is no
command (rules R74, R81, R230). -/
def present (word : CmdWord) (fin : FloatIn) (s : State) : Host.Outcome State Fault Refusal :=
  match decode word with
  | .ok i => exec i (latch word fin s)
  | .error _ => .next (illegalWord (latch word fin s))

/-- One step. With nothing presented the block "simply holds its state" (rule R242). -/
def step (s : State) : Host.Outcome State Fault Refusal :=
  match s.inbox with
  | [] => .next s
  | .command word fin :: rest => present word fin (takeEvent rest s)
  | .assertReset :: rest => .next (hardReset (takeEvent rest s))

/-- `s` with a command word as the next thing the host presents, the float port as it is. The block has no program
counter and fetches nothing (rule R21): the host's next command is what step runs next (log entry 7). -/
def State.withFetchWord (s : State) (nbits w : Nat) : State :=
  { s with inbox := .command (BitVec.ofNat 64 (w % 2 ^ nbits)) s.fin :: s.inbox }

end Sys2Proof.Machine
end

