-- ==== Sys2Proof/Machine/Real.lean ====
section
/-! DEFINITION. What the exact data mean as real numbers: rule R8 states every formula over ℝ ("`cos` is the real
cosine, `π` the real constant, `+ − × /` the real operations"). These readings are for claims; the machine never
computes them. -/

namespace Sys2Proof.Machine

/-- The angle in radians. -/
noncomputable def Angle.toReal (a : Angle) : ℝ := Real.pi * (a.halfTurns : ℝ)

/-- The sum of the cosine terms of a sample. -/
noncomputable def cosineSum (ts : List (Rat × Rat)) : ℝ :=
  (ts.map fun t => (t.1 : ℝ) * Real.cos (Real.pi * (t.2 : ℝ))).sum

/-- The real number a sample is. -/
noncomputable def Sample.toReal (x : Sample) : ℝ := (x.const : ℝ) + cosineSum x.cosines

/-- `trunc` of rule R10 on the reals: round toward zero. -/
noncomputable def truncReal (x : ℝ) : ℤ := if 0 ≤ x then ⌊x⌋ else ⌈x⌉

end Sys2Proof.Machine
end

