-- ==== Sys2Proof/Machine/RefHost.lean ====
section
/-! DEFINITION. The reference host's rules (46_host_pipeline.md), which rule R4 puts outside the block: the numbers it
computes and the commands it issues. Nothing of the machine uses them; they are here so that claims can speak of the
command sequences the spec says a host issues. The Sink (rules R201, R202) is not modelled: the spec excludes it. -/

namespace Sys2Proof.Machine.RefHost

/-- `N = max(0, floor(duration × rate))` (rule R191). -/
def segmentCount (duration rate : Rat) : Nat := (duration * rate).floor.toNat

/-- The alphabet in the order the document lists it, as symbol codes (rules R76, R196). -/
def alphabet : List Byte :=
  [0x30#8, 0x31#8, 0x32#8, 0x33#8, 0x34#8, 0x35#8, 0x36#8, 0x37#8, 0x38#8, 0x39#8,
   0x41#8, 0x42#8, 0x43#8, 0x44#8, 0x2A#8, 0x23#8]

/-- The digit a unit draw picks: entry `floor(16·u)` of the alphabet (rule R196). -/
def digitOf (u : Rat) : Option Byte := alphabet[(16 * u).floor.toNat]?

/-- The duration a unit draw picks from a range: `min + (max − min)·u` (rule R196). A range with `min > max` has no
meaning (rule R196, U5). -/
def durationOf (lo hi u : Rat) : Option Rat := if lo ≤ hi then some (lo + (hi - lo) * u) else none

/-- An SNR: a non-negative ratio, or noiseless (rule R195). -/
inductive Snr where
  | ratio (x : Rat)
  | infinite
deriving DecidableEq, Repr

/-- `k_signal` (rule R197). -/
def kSignal : Snr → Rat
  | .ratio x => x / (x + 1)
  | .infinite => 1

/-- `k_noise` (rule R197). -/
def kNoise : Snr → Rat
  | .ratio x => 1 / (x + 1)
  | .infinite => 0

/-- The kinds of segment (rule R200). -/
inductive Segment where
  | gap
  | digit
deriving DecidableEq, Repr

/-- The segments of a sequence of `n` digits: a gap, then digit and gap `n` times (rules R195, R200). -/
def segments : Nat → List Segment
  | 0 => [.gap]
  | n + 1 => segments n ++ [.digit, .gap]

/-- The draws of the host's own choices: `n` digits, `n` tone durations, `n + 1` gap durations (rules R196, R199). -/
def choiceCommands (n : Nat) : List Instr := List.replicate (n + n + (n + 1)) .rngDraw

/-- The two pulls of one sample of a digit segment (rule R192). -/
def pullPairs : Nat → List Instr
  | 0 => []
  | n + 1 => .oscNext :: .envNext :: pullPairs n

/-- The commands of a digit segment of `n` samples (rule R192). -/
def digitSegment (sym : Byte) (rate n : Nat) : List Instr :=
  .oscStart sym rate :: .envStart false n :: pullPairs n

/-- The commands of one output sample (rule R198); the mixed sample is on the float port beside the `QNT`. -/
def outputCommands (depth : Nat) : List Instr := [.nseNext, .qnt depth]

/-- A command as the host presents it on the `CMD` port. -/
def present (i : Instr) (fin : FloatIn) : HostEvent := .command (encode i) fin

end Sys2Proof.Machine.RefHost
end

