-- ==== Sys2Proof/Safety.lean ====
section
/-! DEFINITION. The terms claims use: the invariant of the state, a presented command's words, runs of commands, their
responses and their draws. -/

namespace Sys2Proof.Machine

/-- The ranges of rule R22. -/
abbrev OscInst.Wf (o : OscInst) : Prop :=
  0 < o.fLo ∧ 0 < o.fHi ∧ 0 ≤ o.phiLo.halfTurns ∧ o.phiLo.halfTurns < 2 ∧ 0 ≤ o.phiHi.halfTurns ∧
    o.phiHi.halfTurns < 2 ∧ 1 ≤ o.rate ∧ o.rate < Config.idxLimit ∧ o.n ≤ Config.idxLimit

/-- The ranges of rule R23, the two choices of the divisor, and rule R129's "`gain` never divides by zero". -/
abbrev EnvInst.Wf (e : EnvInst) : Prop :=
  e.total < Config.idxLimit ∧ e.ron < Config.idxLimit ∧ e.roff < Config.idxLimit ∧ (e.d = e.ron ∨ e.d = e.roff) ∧
    e.k ≤ e.total ∧ ¬(0 < e.total ∧ 0 < e.roff ∧ e.d = 0)

/-- The five fault codes (rule R220). -/
abbrev isFaultCode (c : BitVec 4) : Prop := c = 0x8#4 ∨ c = 0x9#4 ∨ c = 0xA#4 ∨ c = 0xB#4 ∨ c = 0xC#4

/-- The codes a response can carry (rule R220): the others "are never produced". -/
abbrev isStatusCode (c : BitVec 4) : Prop := c = stOk ∨ c = stEnd ∨ isFaultCode c ∨ c = stFaulted

/-- Rule R29: a known status; a float or an integer result only with `OK`, and never both. -/
abbrev Response.Wf (r : Response) : Prop :=
  isStatusCode r.st ∧ (r.st ≠ stOk → r.f = Sample.ofRat 0 ∧ r.i = 0#32) ∧ (r.f = Sample.ofRat 0 ∨ r.i = 0#32)

/-- The fault record (rules R34, R35): all 0 while `FAULT` is 0, a fault's code while it is 1. -/
abbrev State.RecordWf (s : State) : Prop :=
  if s.fault = true then isFaultCode s.fcause else s.fcause = 0#4 ∧ s.fcmdl = 0#32 ∧ s.fcmdh = 0#32

/-- Every entry of the Tone Table is a pair of positive frequencies (rule R26). -/
abbrev tonesWf (v : Vector TonePair 16) : Prop := ∀ j : Fin 16, 0 < v[j].lo ∧ 0 < v[j].hi

/-- The invariant of the block's state. -/
structure State.Inv (s : State) : Prop where
  osc : ∀ o, s.osc = some o → o.Wf
  env : ∀ e, s.env = some e → e.Wf
  ctrlReserved : s.ctrl >>> 2 = 0#32
  record : s.RecordWf
  tones : tonesWf s.tones
  response : ∀ r, s.rsp = some r → r.Wf

/-- A response and nothing else (rules R11, R29), in claims' own words. -/
abbrev answered (st : BitVec 4) (f : Sample) (i : Word32) (s : State) : State := { s with rsp := some ⟨st, f, i⟩ }

/-- Rule R226's four writes and nothing else, in claims' own words. -/
abbrev faultEntered (code : BitVec 4) (s : State) : State :=
  { s with
    fault := true
    fcause := code
    fcmdl := s.cmd.extractLsb' 0 32
    fcmdh := s.cmd.extractLsb' 32 32
    rsp := some ⟨code, Sample.ofRat 0, 0#32⟩ }

/-- A command rule R227 lets execute in fault state: `CLR`, and `RDC` of an assigned register. -/
def runsInFaultState : Instr → Bool
  | .clr => true
  | .rdc reg => decide (reg ≤ 5)
  | .oscStart _ _ => false
  | .oscNext => false
  | .envStart _ _ => false
  | .envNext => false
  | .nseNext => false
  | .rngDraw => false
  | .rngSeed _ => false
  | .qnt _ => false
  | .wrc _ _ => false

/-- A word rule R230 lets past its first check. -/
def runsInFaultStateWord (w : CmdWord) : Bool :=
  match decode w with
  | .ok i => runsInFaultState i
  | .error _ => false

/-- How many draws a command makes when it responds `OK` (rule R146). -/
def drawsOf : Instr → Nat
  | .oscStart _ _ => 2
  | .nseNext => 1
  | .rngDraw => 1
  | .oscNext => 0
  | .envStart _ _ => 0
  | .envNext => 0
  | .rngSeed _ => 0
  | .qnt _ => 0
  | .wrc _ _ => 0
  | .rdc _ => 0
  | .clr => 0

/-- The random source after `k` draws from `r` (rule R146). -/
def rngAfter : Nat → RngState → RngState
  | 0, r => r
  | k + 1, r => rngAfter k (Config.rngUnit r).2

/-- The `k`-th unit draw of the stream that begins at `r` (rule R56). -/
def unitAt (k : Nat) (r : RngState) : Rat := (Config.rngUnit (rngAfter k r)).1

/-- A command as the host presents it: the instruction and the float beside it. -/
abbrev Presented := Instr × FloatIn

/-- The state after one presented command that completes; the state itself where the command stops the machine (none
does). -/
def afterCommand (c : Presented) (s : State) : State :=
  match exec c.1 (latch (encode c.1) c.2 s) with
  | .next t => t
  | .fault _ => s
  | .refused _ => s

/-- The state after a run of presented commands, in order (rule R56). -/
def afterRun : List Presented → State → State
  | [], s => s
  | c :: cs, s => afterRun cs (afterCommand c s)

/-- The commands of a run with the response each gets. -/
def transcript : List Presented → State → List (Instr × Option Response)
  | [], _ => []
  | c :: cs, s => (c.1, (afterCommand c s).rsp) :: transcript cs (afterCommand c s)

/-- The responses of a run to one command. -/
def responsesTo (i : Instr) (tr : List (Instr × Option Response)) : List (Option Response) :=
  (tr.filter fun p => p.1 == i).map Prod.snd

/-- Whether a response is an `OK`. -/
def isOk (r : Option Response) : Bool :=
  match r with
  | some x => x.st == stOk
  | none => false

/-- The draws of a run: those of its commands that respond `OK` (rule R146). -/
def drawsMade (tr : List (Instr × Option Response)) : Nat :=
  (tr.map fun p => if isOk p.2 then drawsOf p.1 else 0).sum

/-- A command that creates or discards an envelope instance. -/
def endsEnvelope : Instr → Bool
  | .envStart _ _ => true
  | .clr => true
  | .oscStart _ _ => false
  | .oscNext => false
  | .envNext => false
  | .nseNext => false
  | .rngDraw => false
  | .rngSeed _ => false
  | .qnt _ => false
  | .wrc _ _ => false
  | .rdc _ => false

/-- A command that creates or discards an oscillator instance. -/
def endsOscillator : Instr → Bool
  | .oscStart _ _ => true
  | .clr => true
  | .envStart _ _ => false
  | .oscNext => false
  | .envNext => false
  | .nseNext => false
  | .rngDraw => false
  | .rngSeed _ => false
  | .qnt _ => false
  | .wrc _ _ => false
  | .rdc _ => false

/-- The state of the block less what is the model's own: what the host will still do and the count of resets. -/
def State.block (s : State) : State := { s with inbox := [], resets := 0 }

end Sys2Proof.Machine
end

