-- ==== Sys2Proof/Certificates/Slice0/Obligations.lean ====
section
/-! DEFINITION. The statements for the provers. A statement whose docstring quotes a rule formalises that rule; the
others rest on the rules their docstrings name. No statement uses the value of an open parameter (log entries 1 to 7);
where a clause rests on the model's choice, its docstring says so and names the log entry. -/

open Sys2Proof Sys2Proof.Machine

/-! ## Encoding and decoding -/

/-- Decode and encode agree on every command, with every operand at every value its field holds (rules R71 to R80). -/
def Obligations.DecodeOfEncodeIsTheCommand : Prop :=
  ∀ i : Instr, i.wellFormed = true → decode (encode i) = .ok i

/-- No two words are the same command, and every decoded command is well formed (rules R71 to R80). -/
def Obligations.EncodeOfDecodeIsTheWord : Prop :=
  ∀ (w : CmdWord) (i : Instr), decode w = .ok i → encode i = w ∧ i.wellFormed = true

/-- Rule R73: "A word `w` is the command of a row iff `w AND mask = match`." The rows are disjoint, a word that
matches no row is no command, and the field letters of the pattern column stand where the rule puts them. -/
def Obligations.WordIsACommandIffItMatchesARow : Prop :=
  (∀ (w : CmdWord), ∀ r ∈ opcodeRows,
    (w &&& r.mask = r.matchBits ↔ ∃ i, decode w = .ok i ∧ i.mnemonic = r.mnemonic)) ∧
  (∀ (w : CmdWord), ∀ r ∈ opcodeRows, ∀ r' ∈ opcodeRows,
    w &&& r.mask = r.matchBits → w &&& r'.mask = r'.matchBits → r = r') ∧
  (∀ (w : CmdWord), (∀ r ∈ opcodeRows, w &&& r.mask ≠ r.matchBits) ↔ ∃ e, decode w = .error e) ∧
  (∀ (w : CmdWord) (i : Instr), decode w = .ok i →
    match i with
    | .oscStart sym rate => sym = w.extractLsb' 48 8 ∧ rate = (w.extractLsb' 0 32).toNat
    | .envStart uo n => uo = w.getLsbD 48 ∧ n = (w.extractLsb' 0 32).toNat
    | .rngSeed seed => seed = w.extractLsb' 0 32
    | .qnt depth => depth = (w.extractLsb' 48 8).toNat
    | .wrc reg value => reg = (w.extractLsb' 48 8).toNat ∧ value = w.extractLsb' 0 32
    | .rdc reg => reg = (w.extractLsb' 48 8).toNat
    | .oscNext => w = 0x1100000000000000#64
    | .envNext => w = 0x2100000000000000#64
    | .nseNext => w = 0x3000000000000000#64
    | .rngDraw => w = 0x3100000000000000#64
    | .clr => w = 0x5200000000000000#64)

/-- Words written out from the rules and the spec's examples decode to the commands they stand for (rules R84, R103,
R121, R145, R161, R176, R177). -/
def Obligations.SpecWordsDecodeToTheirCommands : Prop :=
  decode 0x1035000000001F40#64 = .ok (.oscStart 0x35#8 8000) ∧
  decode 0x1100000000000000#64 = .ok .oscNext ∧
  decode 0x2000000000000008#64 = .ok (.envStart false 8) ∧
  decode 0x2001000000000008#64 = .ok (.envStart true 8) ∧
  decode 0x2100000000000000#64 = .ok .envNext ∧
  decode 0x3000000000000000#64 = .ok .nseNext ∧
  decode 0x3100000000000000#64 = .ok .rngDraw ∧
  decode 0x3200000000003039#64 = .ok (.rngSeed 12345#32) ∧
  decode 0x4010000000000000#64 = .ok (.qnt 16) ∧
  decode 0x5001000000000028#64 = .ok (.wrc 1 40#32) ∧
  decode 0x5103000000000000#64 = .ok (.rdc 3) ∧
  decode 0x5200000000000000#64 = .ok .clr

/-- Rule R52: a command word and a response integer are written out least significant byte first, as in the rule's
example; a serialised command stream decodes command by command, and a response integer is read back from its four
bytes. -/
def Obligations.SerialisedCommandsDecodeInOrder : Prop :=
  wordBytes 0x1031000000001F40#64 = [0x40#8, 0x1F#8, 0x00#8, 0x00#8, 0x00#8, 0x00#8, 0x31#8, 0x10#8] ∧
  (∀ (i : Instr) (rest : List Byte), i.wellFormed = true →
    decodeBytes (encodeBytes i ++ rest) = .ok (i, rest)) ∧
  (∀ bs : List Byte, bs.length < 8 → decodeBytes bs = .error .shortWord) ∧
  (∀ r : Response, r.intBytes =
    [r.i.extractLsb' 0 8, r.i.extractLsb' 8 8, r.i.extractLsb' 16 8, r.i.extractLsb' 24 8]) ∧
  (∀ r : Response, resultOfBytes r.intBytes = some r.i) ∧
  (∀ (bs : List Byte) (i : Word32), resultOfBytes bs = some i → resultBytes i = bs)

/-! ## The step -/

/-- A step runs the command the host presents next: the word and the float are on the port, the command is executed,
and the rest of what the host will do is left (rules R6, R28, R56). -/
def Obligations.StepRunsTheDecodedCommand : Prop :=
  ∀ (s : State) (w : CmdWord) (f : FloatIn) (rest : List HostEvent) (i : Instr),
    s.inbox = .command w f :: rest → decode w = .ok i →
    step s = exec i { s with inbox := rest, cmd := w, fin := f }

/-- With nothing presented the block holds its state (rule R242). -/
def Obligations.StepWithNothingPresentedHoldsTheState : Prop :=
  ∀ s : State, s.inbox = [] → step s = .next s

/-- Rule R36, both columns of its table: what `RST` leaves and what `CLR` leaves, and what the state after hardware
reset holds. Three things here are the model's choice and no rule of the spec: that the response port shows no response
after `RST` (`t.rsp = none`, log entry 11); that the unspecified random source after a reset is the open function
`Config.rngReset` of a count of resets; and that the count is 0 in `State.reset` (both log entry 6). -/
def Obligations.ResetAndClrLeaveTheResetTable : Prop :=
  (∀ (s : State) (rest : List HostEvent), s.inbox = .assertReset :: rest →
    ∃ t, step s = .next t ∧ t.osc = none ∧ t.env = none ∧ t.rng = Config.rngReset (s.resets + 1) ∧ t.ctrl = 0#32 ∧
      t.ron = Config.rollDefault ∧ t.roff = Config.rollDefault ∧ t.fault = false ∧ t.fcause = 0#4 ∧
      t.fcmdl = 0#32 ∧ t.fcmdh = 0#32 ∧ t.tones = s.tones ∧ t.rsp = none ∧ t.inbox = rest) ∧
  (∀ s : State, ∃ t, exec .clr s = .next t ∧ t.osc = none ∧ t.env = none ∧ t.rng = s.rng ∧ t.ctrl = s.ctrl ∧
      t.ron = s.ron ∧ t.roff = s.roff ∧ t.fault = false ∧ t.fcause = 0#4 ∧ t.fcmdl = 0#32 ∧ t.fcmdh = 0#32 ∧
      t.tones = s.tones) ∧
  (State.reset.osc = none ∧ State.reset.env = none ∧ State.reset.rng = Config.rngReset 0 ∧ State.reset.ctrl = 0#32 ∧
    State.reset.ron = Config.rollDefault ∧ State.reset.roff = Config.rollDefault ∧ State.reset.fault = false ∧
    State.reset.fcause = 0#4 ∧ State.reset.fcmdl = 0#32 ∧ State.reset.fcmdh = 0#32 ∧
    State.reset.tones = Config.toneTable)

/-- Rule R262: "The only liveness statement is that every command responds." A step on a presented word, legal or not,
in any state, completes with a response whose status is one of rule R220's, and takes one event. -/
def Obligations.EveryCommandResponds : Prop :=
  ∀ (s : State) (w : CmdWord) (f : FloatIn) (rest : List HostEvent), s.inbox = .command w f :: rest →
    ∃ t r, step s = .next t ∧ t.rsp = some r ∧ isStatusCode r.st ∧ t.inbox = rest

/-! ## Faults -/

/-- Rule R81: "raises the fault `E_ILLEGAL` and has no other effect", for every word that matches no row; the all-zero
and the all-ones word are two. -/
def Obligations.IllegalWordRaisesEIllegalAndNothingElse : Prop :=
  (∀ (w : CmdWord) (f : FloatIn) (s : State), s.fault = false → (∀ r ∈ opcodeRows, w &&& r.mask ≠ r.matchBits) →
    present w f s = .next (faultEntered 0x8#4 { s with cmd := w, fin := f })) ∧
  (∀ r ∈ opcodeRows, 0x0000000000000000#64 &&& r.mask ≠ r.matchBits) ∧
  (∀ r ∈ opcodeRows, 0xFFFFFFFFFFFFFFFF#64 &&& r.mask ≠ r.matchBits)

/-- Rule R226: whenever a presented word is answered with a fault code, the block was not in fault state, and the one
effect is that code's fault entry: "the command writes no other state, draws nothing, produces no value"; while the
block stays in fault state the record keeps describing the first fault. -/
def Obligations.AFaultWritesItsRecordAndNothingElse : Prop :=
  (∀ (w : CmdWord) (f : FloatIn) (s t : State) (r : Response), present w f s = .next t → t.rsp = some r →
    isFaultCode r.st → s.fault = false ∧ t = faultEntered r.st { s with cmd := w, fin := f }) ∧
  (∀ (w : CmdWord) (f : FloatIn) (s t : State), present w f s = .next t → s.fault = true → t.fault = true →
    t.fcause = s.fcause ∧ t.fcmdl = s.fcmdl ∧ t.fcmdh = s.fcmdh)

/-- Rule R227: in fault state every word but `CLR` and `RDC` of an assigned register is answered `FAULTED` and changes
no state, whether or not it is a command; and only `CLR` and hardware reset leave fault state. -/
def Obligations.FaultStateRefusesAllButRdcAndClr : Prop :=
  (∀ (w : CmdWord) (f : FloatIn) (s : State), s.fault = true → w ≠ encode .clr → (∀ reg, reg ≤ 5 → w ≠ encode (.rdc reg)) →
    present w f s = .next (answered 0xF#4 (Sample.ofRat 0) 0#32 { s with cmd := w, fin := f })) ∧
  (∀ s t : State, s.fault = true → step s = .next t → t.fault = false →
    (∃ f rest, s.inbox = .command (encode .clr) f :: rest) ∨ (∃ rest, s.inbox = .assertReset :: rest))

/-- A fault ends the generation (rules R227, R261): from fault state, whatever run of commands without `CLR` the host
presents, nothing of the block changes, and every command but an `RDC` of an assigned register is answered
`FAULTED`. -/
def Obligations.NothingHappensAfterAFaultUntilClr : Prop :=
  ∀ (cs : List Presented) (s : State), s.fault = true → (∀ c ∈ cs, c.1 ≠ .clr) →
    (afterRun cs s = { s with cmd := (afterRun cs s).cmd, fin := (afterRun cs s).fin, rsp := (afterRun cs s).rsp }) ∧
    (∀ p ∈ transcript cs s, (∀ reg, reg ≤ 5 → p.1 ≠ .rdc reg) → p.2 = some ⟨0xF#4, Sample.ofRat 0, 0#32⟩)

/-- Rule R178: "`RDC` and `CLR` are the two commands that execute in fault state"; an `RDC` of an unassigned index is
refused there and the first fault's record kept, and an illegal word is refused too. -/
def Obligations.RdcAndClrAreTheTwoThatRunInFaultState : Prop :=
  (∀ (reg : Nat) (s : State), s.fault = true → reg ≤ 5 →
    ∃ v, exec (.rdc reg) s = .next (answered 0x0#4 (Sample.ofRat 0) v s) ∧
      (reg = 0 → v.extractLsb' 0 2 = s.ctrl.extractLsb' 0 2 ∧ v.extractLsb' 2 30 = 0#30) ∧ (reg = 1 → v = s.ron) ∧
      (reg = 2 → v = s.roff) ∧ (reg = 3 → v = statusWord s) ∧ (reg = 4 → v = s.fcmdl) ∧ (reg = 5 → v = s.fcmdh)) ∧
  (∀ (reg : Nat) (s : State), s.fault = true → 5 < reg →
    exec (.rdc reg) s = .next (answered 0xF#4 (Sample.ofRat 0) 0#32 s)) ∧
  (∀ s : State, s.fault = true → ∃ t, exec .clr s = .next t ∧ t.fault = false ∧
    t.rsp = some ⟨0x0#4, Sample.ofRat 0, 0#32⟩) ∧
  (∀ (i : Instr) (s : State), s.fault = true → i ≠ .clr → (∀ reg, i ≠ .rdc reg) →
    exec i s = .next (answered 0xF#4 (Sample.ofRat 0) 0#32 s)) ∧
  (∀ (w : CmdWord) (f : FloatIn) (s : State), s.fault = true → (∀ r ∈ opcodeRows, w &&& r.mask ≠ r.matchBits) →
    present w f s = .next (answered 0xF#4 (Sample.ofRat 0) 0#32 { s with cmd := w, fin := f }))

/-! ## The Oscillator -/

/-- `OSC.START` does what rule R103 says: a symbol's code and a rate above 0 create an instance from the Tone Table
entry and two draws, low tone first, in place of any older one (rule R104); an unknown symbol faults `E_INVSYM`
whatever the rate; a rate of 0 with a known symbol faults `E_BADPARAM`. -/
def Obligations.OscStartCreatesAnInstanceOrFaults : Prop :=
  (∀ (j : Fin 16) (sym : Byte) (rate : Nat) (s : State), RefHost.alphabet[j.val]? = some sym → 0 < rate → s.fault = false →
    ∃ o : OscInst,
      exec (.oscStart sym rate) s
        = .next (answered 0x0#4 (Sample.ofRat 0) 0#32
            { s with osc := some o, rng := (Config.rngUnit (Config.rngUnit s.rng).2).2 }) ∧
      o.fLo = s.tones[j].lo ∧ o.fHi = s.tones[j].hi ∧
      Angle.toReal o.phiLo = 2 * Real.pi * ((Config.rngUnit s.rng).1 : ℝ) ∧
      Angle.toReal o.phiHi = 2 * Real.pi * ((Config.rngUnit (Config.rngUnit s.rng).2).1 : ℝ) ∧
      o.rate = rate ∧ o.n = 0) ∧
  (∀ (sym : Byte) (rate : Nat) (s : State), sym ∉ RefHost.alphabet → s.fault = false →
    exec (.oscStart sym rate) s = .next (faultEntered 0x9#4 s)) ∧
  (∀ (sym : Byte) (s : State), sym ∈ RefHost.alphabet → s.fault = false →
    exec (.oscStart sym 0) s = .next (faultEntered 0xA#4 s))

/-- Rule R102: the sample at an index is "the mean of cos(2π·f_i·t + φ_i) over the two tones i" at `t = n / rate`, over
the real numbers, and "Its value is always in [−1, 1]". -/
def Obligations.OscSampleIsTheMeanOfTwoCosines : Prop :=
  ∀ (fLo fHi : Rat) (phiLo phiHi : Angle) (rate n : Nat),
    Sample.toReal (oscSample fLo fHi phiLo phiHi rate n)
      = (Real.cos (2 * Real.pi * (fLo : ℝ) * ((n : ℝ) / (rate : ℝ)) + Angle.toReal phiLo)
        + Real.cos (2 * Real.pi * (fHi : ℝ) * ((n : ℝ) / (rate : ℝ)) + Angle.toReal phiHi)) / 2 ∧
    -1 ≤ Sample.toReal (oscSample fLo fHi phiLo phiHi rate n) ∧
    Sample.toReal (oscSample fLo fHi phiLo phiHi rate n) ≤ 1

/-- `OSC.NEXT` does what rule R105 says: it answers the sample at the index, which goes up by 1, and changes nothing
else (no draw); without an instance it faults `E_NOINST`; with the index run out it faults `E_IDXOVF`. -/
def Obligations.OscNextAnswersTheSampleAndAdvances : Prop :=
  (∀ (s : State) (o : OscInst), s.fault = false → s.osc = some o → o.n < 2 ^ 32 →
    ∃ y, exec .oscNext s = .next (answered 0x0#4 y 0#32 { s with osc := some { o with n := o.n + 1 } }) ∧
      Sample.toReal y
        = (Real.cos (2 * Real.pi * (o.fLo : ℝ) * ((o.n : ℝ) / (o.rate : ℝ)) + Angle.toReal o.phiLo)
          + Real.cos (2 * Real.pi * (o.fHi : ℝ) * ((o.n : ℝ) / (o.rate : ℝ)) + Angle.toReal o.phiHi)) / 2) ∧
  (∀ s : State, s.fault = false → s.osc = none → exec .oscNext s = .next (faultEntered 0xB#4 s)) ∧
  (∀ (s : State) (o : OscInst), s.fault = false → s.osc = some o → o.n = 2 ^ 32 →
    exec .oscNext s = .next (faultEntered 0xC#4 s))

/-- The sequence of an oscillator instance (rules R106 (b), R107): in a run of commands that neither starts nor
discards an instance and ends outside fault state, the j-th `OSC.NEXT` answers the sample at index j, whatever the
other commands are. -/
def Obligations.TheJthOscNextAnswersTheJthSample : Prop :=
  ∀ (cs : List Presented) (s : State) (o : OscInst), s.fault = false → s.osc = some o → o.n = 0 →
    (∀ c ∈ cs, endsOscillator c.1 = false) → (afterRun cs s).fault = false →
    responsesTo .oscNext (transcript cs s)
      = (List.range (cs.countP fun c => c.1 == .oscNext)).map fun j => some ⟨0x0#4, o.sampleAt j, 0#32⟩

/-- Rule R106 (c): with both phases 0 the first sample is exactly 1, whatever the frequencies and the rate (at least 1,
rule R22). -/
def Obligations.FirstSampleWithZeroPhasesIsOne : Prop :=
  ∀ (s : State) (o : OscInst), s.fault = false → s.osc = some o → 1 ≤ o.rate → o.n = 0 →
    Angle.toReal o.phiLo = 0 → Angle.toReal o.phiHi = 0 →
    exec .oscNext s = .next (answered 0x0#4 (Sample.ofRat 1) 0#32 { s with osc := some { o with n := 1 } })

/-! ## The Envelope Shaper -/

/-- `ENV.START` does what rule R121 says: the roll lengths and the divisor are latched from `RON`, `ROFF` and
`CTRL.RELDIV`, the index is 0, any older instance is replaced; a release ramp with divisor 0 faults `E_BADPARAM`. -/
def Obligations.EnvStartLatchesTheRollLengths : Prop :=
  ∀ (uo : Bool) (n : Nat) (s : State), s.fault = false →
    let ron := s.ron.toNat
    let roff := if uo = true then s.roff.toNat else ron
    let d := if s.ctrl.getLsbD 0 = true then roff else ron
    ((0 < n ∧ 0 < roff ∧ d = 0) → exec (.envStart uo n) s = .next (faultEntered 0xA#4 s)) ∧
    (¬(0 < n ∧ 0 < roff ∧ d = 0) →
      exec (.envStart uo n) s
        = .next (answered 0x0#4 (Sample.ofRat 0) 0#32
            { s with env := some { total := n, ron := ron, roff := roff, d := d, k := 0 } }))

/-- Rule R129: `ENV.START` raises `E_BADPARAM` exactly with `N > 0`, `UO = 1`, `CTRL.RELDIV = 0`, `RON = 0` and
`ROFF > 0`; and in an instance that meets the invariant no ramp is evaluated with divisor 0. -/
def Obligations.EnvStartFaultsExactlyOnAZeroDivisor : Prop :=
  (∀ (uo : Bool) (n : Nat) (s : State), s.fault = false →
    (exec (.envStart uo n) s = .next (faultEntered 0xA#4 s) ↔
      0 < n ∧ uo = true ∧ s.ctrl.getLsbD 0 = false ∧ s.ron = 0#32 ∧ s.roff ≠ 0#32)) ∧
  (∀ (e : EnvInst) (k : Nat), e.Wf → k < e.total →
    (k < e.ron → e.ron ≠ 0) ∧ (e.ron ≤ k → e.total ≤ k + e.roff → e.d ≠ 0))

/-- Rule R122: the two ramps as real numbers, and the values the rule gives: `attack(0) = 0`, attack falls and is in
(−1, 0]; `release(0) = 1`, `release(d) = 0`, release is in [0, 1]. -/
def Obligations.TheTwoRampsHaveTheirValues : Prop :=
  (∀ ron k : Nat, k < ron →
    Sample.toReal (attack ron k) = (Real.cos (Real.pi * (k : ℝ) / (ron : ℝ)) - 1) / 2 ∧
    -1 < Sample.toReal (attack ron k) ∧ Sample.toReal (attack ron k) ≤ 0) ∧
  (∀ ron k k' : Nat, k < k' → k' < ron → Sample.toReal (attack ron k') < Sample.toReal (attack ron k)) ∧
  (∀ ron : Nat, 0 < ron → attack ron 0 = Sample.ofRat 0) ∧
  (∀ d j : Nat, 0 < d →
    Sample.toReal (release d j) = (Real.cos (Real.pi * (j : ℝ) / (d : ℝ)) + 1) / 2 ∧
    0 ≤ Sample.toReal (release d j) ∧ Sample.toReal (release d j) ≤ 1) ∧
  (∀ d : Nat, 0 < d → release d 0 = Sample.ofRat 1) ∧
  (∀ d : Nat, 0 < d → release d d = Sample.ofRat 0)

/-- The gain at an index (rule R123): the attack span first, then the release span with `j = k − (N − roff)`, else 1;
without overlap these are the document's three spans; with the roll-on length at least N all is attack. -/
def Obligations.TheGainFollowsTheThreeSpans : Prop :=
  (∀ (e : EnvInst) (k : Nat), k < e.total →
    (k < e.ron → gain e k = attack e.ron k) ∧
    (e.ron ≤ k → e.total ≤ k + e.roff → ∃ j, j + e.total = k + e.roff ∧ gain e k = release e.d j) ∧
    (e.ron ≤ k → k + e.roff < e.total → gain e k = Sample.ofRat 1)) ∧
  (∀ e : EnvInst, e.ron + e.roff ≤ e.total →
    (∀ k, k < e.ron → gain e k = attack e.ron k) ∧
    (∀ k, e.ron ≤ k → k < e.total - e.roff → gain e k = Sample.ofRat 1) ∧
    (∀ j, j < e.roff → gain e (e.total - e.roff + j) = release e.d j)) ∧
  (∀ (e : EnvInst) (k : Nat), e.total ≤ e.ron → k < e.total → gain e k = attack e.ron k)

/-- `ENV.NEXT` does what rule R125 says: the gain at the index, which goes up by 1; `END` when all N values have been
taken; `E_NOINST` without an instance. -/
def Obligations.EnvNextAnswersTheGainAndAdvances : Prop :=
  (∀ (s : State) (e : EnvInst), s.fault = false → s.env = some e → e.k < e.total →
    exec .envNext s = .next (answered 0x0#4 (gain e e.k) 0#32 { s with env := some { e with k := e.k + 1 } })) ∧
  (∀ (s : State) (e : EnvInst), s.fault = false → s.env = some e → e.k = e.total →
    exec .envNext s = .next (answered 0x1#4 (Sample.ofRat 0) 0#32 s)) ∧
  (∀ s : State, s.fault = false → s.env = none → exec .envNext s = .next (faultEntered 0xB#4 s))

/-- Rule R126: at the end of the sequence `ENV.NEXT` "changes no state and sets no fault, however many times it is
repeated", answering `END` each time; and "`env.k` never exceeds `env.N`". -/
def Obligations.EndRepeatsAndChangesNothing : Prop :=
  (∀ (m : Nat) (f : FloatIn) (s : State) (e : EnvInst), s.fault = false → s.env = some e → e.k = e.total →
    (∀ p ∈ transcript (List.replicate m (.envNext, f)) s, p.2 = some ⟨0x1#4, Sample.ofRat 0, 0#32⟩) ∧
    { afterRun (List.replicate m (.envNext, f)) s with cmd := s.cmd, fin := s.fin, rsp := s.rsp } = s) ∧
  (∀ (i : Instr) (s t : State), (∀ e, s.env = some e → e.k ≤ e.total) → exec i s = .next t →
    ∀ e, t.env = some e → e.k ≤ e.total)

/-- The length of an envelope (rule R127 (a), (b)): in a run of commands that neither starts nor discards an envelope
and ends outside fault state, the first N `ENV.NEXT` answer `OK` with gains 0 … N−1 in order and every later one
answers `END`, for every N and roll lengths, whatever the other commands are. -/
def Obligations.AnEnvelopeYieldsExactlyNGains : Prop :=
  ∀ (cs : List Presented) (s : State) (e : EnvInst), s.fault = false → s.env = some e → e.k = 0 →
    (∀ c ∈ cs, endsEnvelope c.1 = false) → (afterRun cs s).fault = false →
    responsesTo .envNext (transcript cs s)
      = (List.range (cs.countP fun c => c.1 == .envNext)).map fun j =>
          if j < e.total then some ⟨0x0#4, gain e j, 0#32⟩ else some ⟨0x1#4, Sample.ofRat 0, 0#32⟩

/-- Every gain is in [−1, 1] (rule R127 (c)): attack in (−1, 0], the plateau 1, release in [0, 1]. -/
def Obligations.EveryGainIsBetweenMinusOneAndOne : Prop :=
  ∀ (e : EnvInst) (k : Nat), e.Wf → k < e.total →
    (k < e.ron → -1 < Sample.toReal (gain e k) ∧ Sample.toReal (gain e k) ≤ 0) ∧
    (e.ron ≤ k → 0 ≤ Sample.toReal (gain e k) ∧ Sample.toReal (gain e k) ≤ 1)

/-- Rule R127 (e): with equal roll lengths r ≥ 1 and N ≥ 2r the gain at index 0 is 0, and at indices r and N − r
it is 1. -/
def Obligations.GainAtTheSpanEnds : Prop :=
  ∀ (r n k : Nat), 1 ≤ r → 2 * r ≤ n →
    let e : EnvInst := { total := n, ron := r, roff := r, d := r, k := k }
    gain e 0 = Sample.ofRat 0 ∧ gain e r = Sample.ofRat 1 ∧ gain e (n - r) = Sample.ofRat 1

/-- Corrected mode changes the release divisor and nothing else (rule R128): with `CTRL.RELDIV = 1` the divisor is the
roll-off length; for any two values of `CTRL` under which `ENV.START` creates an instance, the two instances agree but
for the divisor and the states but for `CTRL`; with the roll-off length equal to the roll-on length (always so with
`UO = 0`) both modes create the same instance; and the divisor changes no gain outside the release span. -/
def Obligations.CorrectedModeChangesOnlyTheDivisor : Prop :=
  (∀ (uo : Bool) (n : Nat) (s : State), s.fault = false → s.ctrl.getLsbD 0 = true →
    ∃ t e, exec (.envStart uo n) s = .next t ∧ t.env = some e ∧ e.d = e.roff ∧ e.ron = s.ron.toNat ∧ e.total = n ∧
      e.roff = (if uo = true then s.roff.toNat else s.ron.toNat) ∧ e.k = 0) ∧
  (∀ (uo : Bool) (n : Nat) (s : State) (c c' : Word32), s.fault = false →
    let roff := if uo = true then s.roff.toNat else s.ron.toNat
    (c.getLsbD 0 = true ∨ s.ron ≠ 0#32 ∨ roff = 0 ∨ n = 0) → (c'.getLsbD 0 = true ∨ s.ron ≠ 0#32 ∨ roff = 0 ∨ n = 0) →
    ∃ d d' : Nat,
      exec (.envStart uo n) { s with ctrl := c }
        = .next (answered 0x0#4 (Sample.ofRat 0) 0#32
            { s with ctrl := c, env := some { total := n, ron := s.ron.toNat, roff := roff, d := d, k := 0 } }) ∧
      exec (.envStart uo n) { s with ctrl := c' }
        = .next (answered 0x0#4 (Sample.ofRat 0) 0#32
            { s with ctrl := c', env := some { total := n, ron := s.ron.toNat, roff := roff, d := d', k := 0 } }) ∧
      (c.getLsbD 0 = true → d = roff) ∧ (c.getLsbD 0 = false → d = s.ron.toNat) ∧
      (c'.getLsbD 0 = true → d' = roff) ∧ (c'.getLsbD 0 = false → d' = s.ron.toNat)) ∧
  (∀ (uo : Bool) (n : Nat) (s : State) (c c' : Word32), s.fault = false → (uo = true → s.roff = s.ron) →
    ∃ t t', exec (.envStart uo n) { s with ctrl := c } = .next t ∧ exec (.envStart uo n) { s with ctrl := c' } = .next t' ∧
      t.env = t'.env ∧ t.rsp = t'.rsp ∧ t.env ≠ none) ∧
  (∀ (e : EnvInst) (d k : Nat), k < e.ron ∨ k + e.roff < e.total → gain { e with d := d } k = gain e k)

/-! ## The Noise Source and the random source -/

/-- `NSE.NEXT` does what rule R143 says: one draw `u`, the answer `2·u − 1`, in [−1, 1). -/
def Obligations.NseNextAnswersOneAffineDraw : Prop :=
  ∀ s : State, s.fault = false →
    ∃ y, exec .nseNext s = .next (answered 0x0#4 y 0#32 { s with rng := (Config.rngUnit s.rng).2 }) ∧
      Sample.toReal y = 2 * ((Config.rngUnit s.rng).1 : ℝ) - 1 ∧ -1 ≤ Sample.toReal y ∧ Sample.toReal y < 1

/-- `RNG.DRAW` does what rule R144 says: one draw, answered as it is, in [0, 1) (rule R141). -/
def Obligations.RngDrawAnswersTheUnitDraw : Prop :=
  ∀ s : State, s.fault = false →
    ∃ y, exec .rngDraw s = .next (answered 0x0#4 y 0#32 { s with rng := (Config.rngUnit s.rng).2 }) ∧
      Sample.toReal y = ((Config.rngUnit s.rng).1 : ℝ) ∧ 0 ≤ Sample.toReal y ∧ Sample.toReal y < 1

/-- `RNG.SEED` does what rule R145 says: it sets the random source and leaves both instances and all else alone. -/
def Obligations.RngSeedSetsTheRandomSource : Prop :=
  ∀ (seed : Word32) (s : State), s.fault = false →
    exec (.rngSeed seed) s = .next (answered 0x0#4 (Sample.ofRat 0) 0#32 { s with rng := Config.rngSeed seed })

/-- Rule R146: after `RNG.SEED` and then any run of commands without another `RNG.SEED`, the random source is
`RNG_UNIT` applied m times to `RNG_SEED(seed)`, m being two for every `OSC.START` and one for every `NSE.NEXT` and
`RNG.DRAW` that answered `OK`. -/
def Obligations.DrawsAreCountedByTheCommandsThatSucceed : Prop :=
  ∀ (cs : List Presented) (seed : Word32) (f : FloatIn) (s : State), s.fault = false →
    (∀ c ∈ cs, ∀ sd, c.1 ≠ .rngSeed sd) →
    let s1 := afterCommand (.rngSeed seed, f) s
    (afterRun cs s1).rng = rngAfter (drawsMade (transcript cs s1)) (Config.rngSeed seed)

/-- The k-th draw of a run receives the k-th value of the stream (rule R56), whichever command draws it: after a run
without `RNG.SEED` that made m draws and ended outside fault state, `RNG.DRAW` answers the m-th value, `NSE.NEXT` twice
that less 1, and an `OSC.START` takes the m-th value for the low tone's phase and the one after it for the high
tone's. -/
def Obligations.TheKthDrawReceivesTheKthValue : Prop :=
  ∀ (cs : List Presented) (f : FloatIn) (s : State), (∀ c ∈ cs, ∀ sd, c.1 ≠ .rngSeed sd) → (afterRun cs s).fault = false →
    (afterCommand (.rngDraw, f) (afterRun cs s)).rsp
      = some ⟨0x0#4, Sample.ofRat (unitAt (drawsMade (transcript cs s)) s.rng), 0#32⟩ ∧
    (afterCommand (.nseNext, f) (afterRun cs s)).rsp
      = some ⟨0x0#4, Sample.ofRat (2 * unitAt (drawsMade (transcript cs s)) s.rng - 1), 0#32⟩ ∧
    ∀ (sym : Byte) (rate : Nat), sym ∈ RefHost.alphabet → 0 < rate →
      (afterCommand (.oscStart sym rate, f) (afterRun cs s)).rsp = some ⟨0x0#4, Sample.ofRat 0, 0#32⟩ ∧
      ∃ o, (afterCommand (.oscStart sym rate, f) (afterRun cs s)).osc = some o ∧
        Angle.toReal o.phiLo = 2 * Real.pi * (unitAt (drawsMade (transcript cs s)) s.rng : ℝ) ∧
        Angle.toReal o.phiHi = 2 * Real.pi * (unitAt (drawsMade (transcript cs s) + 1) s.rng : ℝ)

/-! ## The Quantizer -/

/-- `QNT` does what rule R161 says, over the real numbers: with `q = trunc(s × 2^(B−1))` the answer is the integer in
the B-bit signed range that is `q` clamped (`CTRL.SAT = 1`) or congruent to `q` modulo `2^B` (`CTRL.SAT = 0`),
sign-extended; a bit depth outside 1 … 32 or a float that is not finite faults `E_BADPARAM`; no other state
changes. -/
def Obligations.QntAnswersTheTruncatedScaledSample : Prop :=
  (∀ (depth : Nat) (x : Rat) (s : State), s.fault = false → 1 ≤ depth → depth ≤ 32 → s.fin = .finite x →
    ∃ (r : Int) (v : Word32), exec (.qnt depth) s = .next (answered 0x0#4 (Sample.ofRat 0) v s) ∧ v.toInt = r ∧
      -(2 ^ (depth - 1)) ≤ r ∧ r ≤ 2 ^ (depth - 1) - 1 ∧
      (s.ctrl.getLsbD 1 = false → (2 ^ depth : Int) ∣ truncReal ((x : ℝ) * 2 ^ (depth - 1)) - r) ∧
      (s.ctrl.getLsbD 1 = true →
        r = min (max (truncReal ((x : ℝ) * 2 ^ (depth - 1))) (-(2 ^ (depth - 1)))) (2 ^ (depth - 1) - 1))) ∧
  (∀ (depth : Nat) (s : State), s.fault = false → (depth < 1 ∨ 32 < depth) →
    exec (.qnt depth) s = .next (faultEntered 0xA#4 s)) ∧
  (∀ (depth : Nat) (s : State), s.fault = false → (∀ x, s.fin ≠ .finite x) →
    exec (.qnt depth) s = .next (faultEntered 0xA#4 s))

/-- The rational values of the float port lose no behaviour of `QNT` (rules R8, R161; log entry 2): for every real
number there is a rational one with the same `trunc(s × 2^(B−1))` at every legal bit depth. -/
def Obligations.EveryRealSampleHasARationalRepresentative : Prop :=
  ∀ x : ℝ, ∃ y : Rat, ∀ depth : Nat, 1 ≤ depth → depth ≤ 32 →
    truncReal (x * 2 ^ (depth - 1)) = trunc (y * 2 ^ (depth - 1))

/-- `trunc` of rule R10 is "the integer nearest to the real x among those with |integer| <= |x|". -/
def Obligations.TruncIsTheNearestIntegerTowardZero : Prop :=
  ∀ x : Rat, |(trunc x : Rat)| ≤ |x| ∧ ∀ m : Int, |(m : Rat)| ≤ |x| → |x - (trunc x : Rat)| ≤ |x - (m : Rat)|

/-- Rule R162: wrapping keeps "the low B bits of the integer q, read as a signed number", so `q` and `q + 2^B` give
the same result, as in the rule's examples. -/
def Obligations.WrappingKeepsTheLowBits : Prop :=
  (∀ (depth : Nat) (q : Int), 1 ≤ depth →
    wrapB depth q = (BitVec.ofInt depth q).toInt ∧ wrapB depth (q + 2 ^ depth) = wrapB depth q) ∧
  quantized false 16 3 = -32768 ∧ quantized false 16 1 = -32768 ∧ quantized false 16 2 = 0 ∧ quantized false 16 0 = 0

/-- Full scale (rule R163): −1.0 gives −2^(B−1) in either mode; +1.0 wraps to −2^(B−1), and saturates to
2^(B−1) − 1. -/
def Obligations.PositiveFullScaleWraps : Prop :=
  ∀ (depth : Nat), 1 ≤ depth → depth ≤ 32 →
    (∀ sat : Bool, quantized sat depth (-1) = -(2 ^ (depth - 1))) ∧
    quantized false depth 1 = -(2 ^ (depth - 1)) ∧ quantized true depth 1 = 2 ^ (depth - 1) - 1

/-- Rule R166: saturating mode gives 2^(B−1) − 1 for every s ≥ 1 and −2^(B−1) for every s ≤ −1, and is wrap mode
inside (−1, 1); `SAT` is 0 after reset. -/
def Obligations.SaturatingModeClampsOutsideTheRange : Prop :=
  (∀ (depth : Nat) (x : Rat), 1 ≤ depth → depth ≤ 32 →
    (1 ≤ x → quantized true depth x = 2 ^ (depth - 1) - 1) ∧
    (x ≤ -1 → quantized true depth x = -(2 ^ (depth - 1))) ∧
    (-1 < x → x < 1 → quantized true depth x = quantized false depth x)) ∧
  State.reset.ctrl.getLsbD 1 = false

/-- The Quantizer's integer laws (rule R164 (b) to (f)): no wrap for |s| < 1; odd symmetry there; monotone on
−1 ≤ s < 1 in either mode and everywhere when saturating; 0 for 0; at one bit, 0 inside and −1 at −1. -/
def Obligations.QuantizerIntegerLaws : Prop :=
  (∀ (sat : Bool) (depth : Nat) (x : Rat), 1 ≤ depth → -1 < x → x < 1 →
    quantized sat depth x = trunc (x * 2 ^ (depth - 1)) ∧ |quantized sat depth x| ≤ 2 ^ (depth - 1) - 1 ∧
    quantized sat depth (-x) = -quantized sat depth x) ∧
  (∀ (sat : Bool) (depth : Nat) (x y : Rat), 1 ≤ depth → -1 ≤ x → x ≤ y → y < 1 →
    quantized sat depth x ≤ quantized sat depth y) ∧
  (∀ (depth : Nat) (x y : Rat), x ≤ y → quantized true depth x ≤ quantized true depth y) ∧
  (∀ (sat : Bool) (depth : Nat), 1 ≤ depth → quantized sat depth 0 = 0) ∧
  (∀ (sat : Bool) (x : Rat), -1 < x → x < 1 → quantized sat 1 x = 0) ∧
  (∀ sat : Bool, quantized sat 1 (-1) = -1) ∧ quantized false 1 1 = -1 ∧ quantized true 1 1 = 0

/-! ## The configuration and status registers -/

/-- `WRC` does what rule R176 says: it writes the named register and nothing else; a reserved bit of `CTRL` faults
`E_BADPARAM`; a read-only or unassigned index faults `E_ILLEGAL`. -/
def Obligations.WrcWritesTheNamedRegister : Prop :=
  (∀ (v : Word32) (s : State), s.fault = false → v.extractLsb' 2 30 = 0#30 →
    exec (.wrc 0 v) s = .next (answered 0x0#4 (Sample.ofRat 0) 0#32 { s with ctrl := v })) ∧
  (∀ (v : Word32) (s : State), s.fault = false → v.extractLsb' 2 30 ≠ 0#30 →
    exec (.wrc 0 v) s = .next (faultEntered 0xA#4 s)) ∧
  (∀ (v : Word32) (s : State), s.fault = false →
    exec (.wrc 1 v) s = .next (answered 0x0#4 (Sample.ofRat 0) 0#32 { s with ron := v })) ∧
  (∀ (v : Word32) (s : State), s.fault = false →
    exec (.wrc 2 v) s = .next (answered 0x0#4 (Sample.ofRat 0) 0#32 { s with roff := v })) ∧
  (∀ (reg : Nat) (v : Word32) (s : State), s.fault = false → 2 < reg →
    exec (.wrc reg v) s = .next (faultEntered 0x8#4 s))

/-- `RDC` does what rule R177 says: it answers the named register's value, in or out of fault state, and changes
nothing else; an unassigned index faults `E_ILLEGAL`. -/
def Obligations.RdcAnswersTheNamedRegister : Prop :=
  (∀ s : State, ∃ v, exec (.rdc 0) s = .next (answered 0x0#4 (Sample.ofRat 0) v s) ∧
    v.getLsbD 0 = s.ctrl.getLsbD 0 ∧ v.getLsbD 1 = s.ctrl.getLsbD 1 ∧ v.extractLsb' 2 30 = 0#30) ∧
  (∀ s : State, exec (.rdc 1) s = .next (answered 0x0#4 (Sample.ofRat 0) s.ron s)) ∧
  (∀ s : State, exec (.rdc 2) s = .next (answered 0x0#4 (Sample.ofRat 0) s.roff s)) ∧
  (∀ s : State, exec (.rdc 3) s = .next (answered 0x0#4 (Sample.ofRat 0) (statusWord s) s)) ∧
  (∀ s : State, exec (.rdc 4) s = .next (answered 0x0#4 (Sample.ofRat 0) s.fcmdl s)) ∧
  (∀ s : State, exec (.rdc 5) s = .next (answered 0x0#4 (Sample.ofRat 0) s.fcmdh s)) ∧
  (∀ (reg : Nat) (s : State), s.fault = false → 5 < reg → exec (.rdc reg) s = .next (faultEntered 0x8#4 s))

/-- Rule R34: every bit of `STATUS`. -/
def Obligations.StatusHasTheFlagsOfTheState : Prop :=
  ∀ s : State,
    ((statusWord s).getLsbD 0 = true ↔ s.fault = true) ∧
    ((statusWord s).getLsbD 1 = true ↔ ∃ o, s.osc = some o) ∧
    ((statusWord s).getLsbD 2 = true ↔ ∃ e, s.env = some e) ∧
    ((statusWord s).getLsbD 3 = true ↔ ∃ e, s.env = some e ∧ e.k = e.total) ∧
    ((statusWord s).getLsbD 4 = true ↔ ∃ o, s.osc = some o ∧ o.n = 2 ^ 32) ∧
    (statusWord s).extractLsb' 5 3 = 0#3 ∧
    (s.fault = true → (statusWord s).extractLsb' 8 4 = s.fcause) ∧
    (s.fault = false → (statusWord s).extractLsb' 8 4 = 0#4) ∧
    (statusWord s).extractLsb' 12 20 = 0#20

/-- `CLR` does what rule R179 says: "always responds `OK`, in or out of fault state"; both instances and the fault
record are cleared, every flag of `STATUS` becomes 0, and `rng`, `CTRL`, `RON`, `ROFF` and all else are kept. -/
def Obligations.ClrClearsTheInstancesAndTheFaultRecord : Prop :=
  ∀ s : State, ∃ t, exec .clr s = .next t ∧ statusWord t = 0#32 ∧
    t = answered 0x0#4 (Sample.ofRat 0) 0#32
      { s with osc := none, env := none, fault := false, fcause := 0#4, fcmdl := 0#32, fcmdh := 0#32 }

/-! ## The whole machine -/

/-- Who writes what (rules R21 to R24, R26, R30, R35): in any state, a command that changes a piece of state is one of
those the rules name for it, and no command changes the Tone Table, the port's command or what the host will do. -/
def Obligations.OnlyTheNamedCommandsWriteEachPieceOfState : Prop :=
  ∀ (i : Instr) (s t : State), exec i s = .next t →
    (t.osc = s.osc ∨ (∃ sym rate, i = .oscStart sym rate) ∨ i = .oscNext ∨ i = .clr) ∧
    (t.env = s.env ∨ (∃ uo n, i = .envStart uo n) ∨ i = .envNext ∨ i = .clr) ∧
    (t.rng = s.rng ∨ (∃ sym rate, i = .oscStart sym rate) ∨ i = .nseNext ∨ i = .rngDraw ∨ ∃ seed, i = .rngSeed seed) ∧
    (t.ctrl = s.ctrl ∨ ∃ v, i = .wrc 0 v) ∧ (t.ron = s.ron ∨ ∃ v, i = .wrc 1 v) ∧ (t.roff = s.roff ∨ ∃ v, i = .wrc 2 v) ∧
    ((t.fault = s.fault ∧ t.fcause = s.fcause ∧ t.fcmdl = s.fcmdl ∧ t.fcmdh = s.fcmdh) ∨ i = .clr ∨
      (s.fault = false ∧ t.fault = true)) ∧
    t.tones = s.tones ∧ t.cmd = s.cmd ∧ t.fin = s.fin ∧ t.inbox = s.inbox ∧ t.resets = s.resets

/-- An oscillator instance keeps its frequencies, phases and rate for its life, and its index only goes up by one, at
an `OSC.NEXT` that answers `OK` (rules R21, R22, R105). -/
def Obligations.OscillatorInstanceIsFixedButForItsIndex : Prop :=
  ∀ (i : Instr) (s t : State) (o o' : OscInst), exec i s = .next t → endsOscillator i = false → s.osc = some o →
    t.osc = some o' →
    o' = { o with n := o'.n } ∧ (o'.n = o.n ∨ o'.n = o.n + 1 ∧ i = .oscNext ∧ isOk t.rsp = true)

/-- The float beside a command is read by `QNT` alone (rule R28): any other command does the same whatever it is. -/
def Obligations.TheFloatInputIsReadByQntAlone : Prop :=
  ∀ (i : Instr) (s t : State) (x : FloatIn), (∀ depth, i ≠ .qnt depth) → exec i s = .next t →
    exec i { s with fin := x } = .next { t with fin := x }

/-- Rule R29: what each field of a response holds, and when: a float only from the four commands that give one, an
integer only from `QNT` and `RDC`, both only with `OK`, else 0.0 and 0. -/
def Obligations.UnusedResponseFieldsAreZero : Prop :=
  ∀ (i : Instr) (s t : State), exec i s = .next t → ∃ r, t.rsp = some r ∧ isStatusCode r.st ∧
    (r.f ≠ Sample.ofRat 0 → r.st = 0x0#4 ∧ (i = .oscNext ∨ i = .envNext ∨ i = .nseNext ∨ i = .rngDraw)) ∧
    (r.i ≠ 0#32 → r.st = 0x0#4 ∧ ((∃ depth, i = .qnt depth) ∨ ∃ reg, i = .rdc reg))

/-- The invariant of the state (rules R22, R23, R26, R29, R31, R34, R35, R129) is kept by every step, from every state
that meets it. -/
def Obligations.EveryStepKeepsTheInvariant : Prop :=
  ∀ s t : State, s.Inv → step s = .next t → t.Inv

/-- The state after hardware reset meets the invariant, whatever the open parameters are (rule R36). -/
def Obligations.ResetMeetsTheInvariant : Prop := State.reset.Inv

/-- Rule R251's last sentences and S7: from any two states with the same Tone Table, `CLR`, a write of each of `CTRL`,
`RON`, `ROFF` and an `RNG.SEED` leave the same block, outside fault state, and every run of commands then gets the
same responses. -/
def Obligations.InitialisationDeterminesEverythingAfterIt : Prop :=
  ∀ (s s' : State) (c a b seed : Word32) (f : FloatIn) (cs : List Presented), s.tones = s'.tones → c >>> 2 = 0#32 →
    let init : List Presented := [(.clr, f), (.wrc 0 c, f), (.wrc 1 a, f), (.wrc 2 b, f), (.rngSeed seed, f)]
    (afterRun init s).fault = false ∧ (afterRun init s).block = (afterRun init s').block ∧
      transcript cs (afterRun init s) = transcript cs (afterRun init s')

/-- The reference host's digit segment (rule R192) runs on the block without a fault: its N pulls of each unit are
answered `OK`, with samples 0 … N−1 and gains 0 … N−1, and leave both indices at N. -/
def Obligations.ADigitSegmentRunsToItsEnd : Prop :=
  ∀ (sym : Byte) (rate n : Nat) (f : FloatIn) (s : State), sym ∈ RefHost.alphabet → 0 < rate → n < 2 ^ 32 →
    s.fault = false →
    let cs : List Presented := (RefHost.digitSegment sym rate n).map fun i => (i, f)
    ∃ (o : OscInst) (e : EnvInst), (afterRun cs s).fault = false ∧ (afterRun cs s).osc = some o ∧
      (afterRun cs s).env = some e ∧ o.n = n ∧ e.k = n ∧ e.total = n ∧ e.ron = s.ron.toNat ∧
      responsesTo .oscNext (transcript cs s) = (List.range n).map (fun j => some ⟨0x0#4, o.sampleAt j, 0#32⟩) ∧
      responsesTo .envNext (transcript cs s) = (List.range n).map (fun j => some ⟨0x0#4, gain e j, 0#32⟩)

/-- The reference host's mixing weights (rule R197): both in [0, 1], with sum 1; and its segments (rule R200):
`segment count = 2×(digit count)+1`, starting and ending with a gap. -/
def Obligations.HostWeightsAndSegmentsKeepTheirInvariants : Prop :=
  (∀ x : Rat, 0 ≤ x →
    0 ≤ RefHost.kSignal (.ratio x) ∧ RefHost.kSignal (.ratio x) ≤ 1 ∧ 0 ≤ RefHost.kNoise (.ratio x) ∧
    RefHost.kNoise (.ratio x) ≤ 1 ∧ RefHost.kSignal (.ratio x) + RefHost.kNoise (.ratio x) = 1) ∧
  RefHost.kSignal .infinite = 1 ∧ RefHost.kNoise .infinite = 0 ∧
  (∀ n, (RefHost.segments n).length = 2 * n + 1 ∧ (RefHost.segments n).head? = some .gap ∧
    (RefHost.segments n).getLast? = some .gap)
end

