-- ==== Sys2Proof/Laws/Decode.lean ====
section
/-! SUPPORT. The fields of a word of format `C` are what it was made of (rule R71), and what the decoder's check of
the must-be-zero fields can answer (rule R80). -/

namespace Sys2Proof

@[simp] theorem fieldOp_formatC (op a : Byte) (imm : Word32) : fieldOp (formatC op a imm) = op := by
  ext j hj
  simp only [fieldOp, formatC, BitVec.getElem_extractLsb', BitVec.getLsbD_append]
  rw [if_neg (by omega), if_neg (by omega), if_neg (by omega), BitVec.getLsbD_eq_getElem (by omega)]
  congr 1; omega

@[simp] theorem fieldA_formatC (op a : Byte) (imm : Word32) : fieldA (formatC op a imm) = a := by
  ext j hj
  simp only [fieldA, formatC, BitVec.getElem_extractLsb', BitVec.getLsbD_append]
  rw [if_neg (by omega), if_neg (by omega), if_pos (by omega), BitVec.getLsbD_eq_getElem (by omega)]
  congr 1; omega

@[simp] theorem fieldZ_formatC (op a : Byte) (imm : Word32) : fieldZ (formatC op a imm) = 0#16 := by
  ext j hj
  simp only [fieldZ, formatC, BitVec.getElem_extractLsb', BitVec.getLsbD_append]
  rw [if_neg (by omega), if_pos (by omega)]
  simp

@[simp] theorem fieldImm_formatC (op a : Byte) (imm : Word32) : fieldImm (formatC op a imm) = imm := by
  ext j hj
  simp only [fieldImm, formatC, BitVec.getElem_extractLsb', BitVec.getLsbD_append]
  rw [if_pos (by omega), BitVec.getLsbD_eq_getElem (by omega)]
  congr 1; omega

/-- A word is made of its fields. -/
theorem word_eq_fields (w : CmdWord) : w = fieldOp w ++ fieldA w ++ fieldZ w ++ fieldImm w := by
  refine BitVec.eq_of_getLsbD_eq fun j hj => ?_
  simp only [fieldOp, fieldA, fieldZ, fieldImm, BitVec.getLsbD_append, BitVec.getLsbD_extractLsb']
  have bit (c : Prop) [Decidable c] (k : Nat) (hc : c) (hk : k = j) :
      BitVec.getLsbD w j = (decide c && BitVec.getLsbD w k) := by simp [hc, hk]
  split_ifs <;> exact bit _ _ (by omega) (by omega)

/-- A 32-bit word is made of its four bytes (rule R52). -/
theorem word32_eq_bytes (i : Word32) :
    i = i.extractLsb' 24 8 ++ i.extractLsb' 16 8 ++ i.extractLsb' 8 8 ++ i.extractLsb' 0 8 := by
  refine BitVec.eq_of_getLsbD_eq fun j hj => ?_
  simp only [BitVec.getLsbD_append, BitVec.getLsbD_extractLsb']
  have bit (c : Prop) [Decidable c] (k : Nat) (hc : c) (hk : k = j) :
      BitVec.getLsbD i j = (decide c && BitVec.getLsbD i k) := by simp [hc, hk]
  split_ifs <;> exact bit _ _ (by omega) (by omega)

@[simp] theorem fitsImm_iff {n : Nat} : fitsImm n = true ↔ n < 4294967296 := decide_eq_true_iff

@[simp] theorem fitsA_iff {n : Nat} : fitsA n = true ↔ n < 256 := decide_eq_true_iff

/-- Everything the check of the must-be-zero fields can answer (rule R80). -/
theorem checked_eq_ok {w : CmdWord} {aZero : Byte} {immZero : Bool} {i j : Instr} :
    checked w aZero immZero i = .ok j ↔
      fieldZ w = 0#16 ∧ fieldA w &&& aZero = 0#8 ∧ (immZero = true → fieldImm w = 0#32) ∧ i = j := by
  unfold checked
  split_ifs with hz ha hi <;> simp_all

theorem ite_eq_cases {α : Type} {c : Prop} [Decidable c] {a b x : α} (h : (if c then a else b) = x) :
    (c ∧ a = x) ∨ b = x := by
  split at h
  · exact .inl ⟨‹_›, h⟩
  · exact .inr h
/-- Everything the decoder can accept: one row of rule R72 each. -/
theorem decode_cases {w : CmdWord} {i : Instr} (h : decode w = .ok i) :
    (fieldOp w = 0x10#8 ∧ checked w 0x00#8 false (.oscStart (fieldA w) (fieldImm w).toNat) = .ok i) ∨
    (fieldOp w = 0x11#8 ∧ checked w 0xFF#8 true .oscNext = .ok i) ∨
    (fieldOp w = 0x20#8 ∧ checked w 0xFE#8 false (.envStart ((fieldA w).getLsbD 0) (fieldImm w).toNat) = .ok i) ∨
    (fieldOp w = 0x21#8 ∧ checked w 0xFF#8 true .envNext = .ok i) ∨
    (fieldOp w = 0x30#8 ∧ checked w 0xFF#8 true .nseNext = .ok i) ∨
    (fieldOp w = 0x31#8 ∧ checked w 0xFF#8 true .rngDraw = .ok i) ∨
    (fieldOp w = 0x32#8 ∧ checked w 0xFF#8 false (.rngSeed (fieldImm w)) = .ok i) ∨
    (fieldOp w = 0x40#8 ∧ checked w 0x00#8 true (.qnt (fieldA w).toNat) = .ok i) ∨
    (fieldOp w = 0x50#8 ∧ checked w 0x00#8 false (.wrc (fieldA w).toNat (fieldImm w)) = .ok i) ∨
    (fieldOp w = 0x51#8 ∧ checked w 0x00#8 true (.rdc (fieldA w).toNat) = .ok i) ∨
    (fieldOp w = 0x52#8 ∧ checked w 0xFF#8 true .clr = .ok i) := by
  unfold decode at h
  refine (ite_eq_cases h).imp_right fun h => ?_
  refine (ite_eq_cases h).imp_right fun h => ?_
  refine (ite_eq_cases h).imp_right fun h => ?_
  refine (ite_eq_cases h).imp_right fun h => ?_
  refine (ite_eq_cases h).imp_right fun h => ?_
  refine (ite_eq_cases h).imp_right fun h => ?_
  refine (ite_eq_cases h).imp_right fun h => ?_
  refine (ite_eq_cases h).imp_right fun h => ?_
  refine (ite_eq_cases h).imp_right fun h => ?_
  refine (ite_eq_cases h).imp_right fun h => ?_
  exact (ite_eq_cases h).resolve_right nofun

/-- A word with `Z = 0` is the word of format `C` made from its other fields. -/
theorem formatC_fields {w : CmdWord} {op a : Byte} {imm : Word32} (hop : fieldOp w = op) (ha : fieldA w = a)
    (hz : fieldZ w = 0#16) (hi : fieldImm w = imm) : formatC op a imm = w := by
  subst hop ha hi
  conv_rhs => rw [word_eq_fields w, hz]
  rfl

end Sys2Proof
end

