-- ==== Sys2Proof/Laws/Numeric.lean ====
section
/-! SUPPORT. The exact arithmetic of Machine/Numeric.lean is the real arithmetic of rule R8: one lemma per operation.
Also the ranges of the integer helpers of rule R10 and of a unit draw. -/

namespace Sys2Proof.Machine

@[simp] theorem Angle.toReal_piTimes (q : Rat) : Angle.toReal (Angle.piTimes q) = Real.pi * (q : ℝ) := rfl

@[simp] theorem Angle.toReal_twoPiTimes (q : Rat) : Angle.toReal (Angle.twoPiTimes q) = 2 * Real.pi * (q : ℝ) := by
  simp only [Angle.toReal, Angle.twoPiTimes]; push_cast; ring

@[simp] theorem Angle.toReal_add (a b : Angle) : Angle.toReal (Angle.add a b) = Angle.toReal a + Angle.toReal b := by
  simp only [Angle.toReal, Angle.add]; push_cast; ring

@[simp] theorem cosineSum_nil : cosineSum [] = 0 := rfl

@[simp] theorem cosineSum_cons (t : Rat × Rat) (ts : List (Rat × Rat)) :
    cosineSum (t :: ts) = (t.1 : ℝ) * Real.cos (Real.pi * (t.2 : ℝ)) + cosineSum ts := by
  simp [cosineSum]

theorem cosineSum_append (xs ys : List (Rat × Rat)) : cosineSum (xs ++ ys) = cosineSum xs + cosineSum ys := by
  simp [cosineSum]

theorem cosineSum_scale (c : Rat) (ts : List (Rat × Rat)) :
    cosineSum (ts.map fun t => (c * t.1, t.2)) = (c : ℝ) * cosineSum ts := by
  induction ts with
  | nil => simp
  | cons t ts ih => simp only [List.map_cons, cosineSum_cons, ih]; push_cast; ring

@[simp] theorem Sample.toReal_ofRat (q : Rat) : Sample.toReal (Sample.ofRat q) = (q : ℝ) := by
  simp [Sample.toReal, Sample.ofRat]

@[simp] theorem Sample.toReal_add (x y : Sample) :
    Sample.toReal (Sample.add x y) = Sample.toReal x + Sample.toReal y := by
  simp only [Sample.toReal, Sample.add, cosineSum_append]; push_cast; ring

@[simp] theorem Sample.toReal_scale (c : Rat) (x : Sample) :
    Sample.toReal (Sample.scale c x) = (c : ℝ) * Sample.toReal x := by
  simp only [Sample.toReal, Sample.scale, cosineSum_scale]; push_cast; ring

@[simp] theorem Sample.toReal_half (x : Sample) : Sample.toReal (Sample.half x) = Sample.toReal x / 2 := by
  simp only [Sample.half, Sample.toReal_scale]; push_cast; ring

theorem Sample.toReal_cosFirstQuarter (q : Rat) :
    Sample.toReal (Sample.cosFirstQuarter q) = Real.cos (Real.pi * (q : ℝ)) := by
  unfold Sample.cosFirstQuarter
  split_ifs with h0 h3 h2
  · simp [h0]
  · have : Real.pi * (q : ℝ) = Real.pi / 3 := by rw [h3]; push_cast; ring
    rw [this, Real.cos_pi_div_three]; simp
  · have : Real.pi * (q : ℝ) = Real.pi / 2 := by rw [h2]; push_cast; ring
    rw [this, Real.cos_pi_div_two]; simp
  · simp [Sample.toReal]

theorem Sample.toReal_cosHalfTurn (q : Rat) :
    Sample.toReal (Sample.cosHalfTurn q) = Real.cos (Real.pi * (q : ℝ)) := by
  unfold Sample.cosHalfTurn
  split_ifs
  · exact Sample.toReal_cosFirstQuarter q
  · have : Real.pi * ((1 - q : Rat) : ℝ) = Real.pi - Real.pi * (q : ℝ) := by push_cast; ring
    rw [Sample.toReal_scale, Sample.toReal_cosFirstQuarter, this, Real.cos_pi_sub]; push_cast; ring

/-- Whole turns do not change a cosine. -/
theorem cos_withinTurn (a : Angle) : Real.cos (Real.pi * (Angle.withinTurn a : ℝ)) = Real.cos (Angle.toReal a) := by
  have : Real.pi * (Angle.withinTurn a : ℝ)
      = Angle.toReal a - ((a.halfTurns / 2).floor : ℝ) * (2 * Real.pi) := by
    simp only [Angle.withinTurn, Angle.toReal]; push_cast; ring
  rw [this, Real.cos_sub_int_mul_two_pi]

/-- The model's cosine is the real cosine (rule R8). -/
@[simp] theorem Sample.toReal_cos (a : Angle) : Sample.toReal (Sample.cos a) = Real.cos (Angle.toReal a) := by
  unfold Sample.cos
  split_ifs
  · rw [Sample.toReal_cosHalfTurn, cos_withinTurn]
  · have : Real.pi * ((2 - Angle.withinTurn a : Rat) : ℝ) = 2 * Real.pi - Real.pi * (Angle.withinTurn a : ℝ) := by
      push_cast; ring
    rw [Sample.toReal_cosHalfTurn, this, Real.cos_two_pi_sub, cos_withinTurn]

theorem Sample.toReal_cos_le_one (a : Angle) : Sample.toReal (Sample.cos a) ≤ 1 := by
  rw [Sample.toReal_cos]; exact Real.cos_le_one _

theorem Sample.neg_one_le_toReal_cos (a : Angle) : -1 ≤ Sample.toReal (Sample.cos a) := by
  rw [Sample.toReal_cos]; exact Real.neg_one_le_cos _

/-- `trunc` as floor and ceiling. -/
theorem trunc_eq (x : Rat) : trunc x = if 0 ≤ x then ⌊x⌋ else -⌊-x⌋ := by
  change trunc x = if 0 ≤ x then x.floor else -((-x).floor)
  have hd : (x.den : Int) ≠ 0 := by exact_mod_cast x.den_nz
  have hp : (0 : Int) ≤ x.den := Int.natCast_nonneg _
  unfold trunc
  split_ifs with h
  · rw [Int.tdiv_eq_ediv_of_nonneg (Rat.num_nonneg.mpr h), Rat.floor_def]
  · have hn : 0 ≤ -x.num := by
      have := Rat.num_neg.mpr (not_le.mp h); omega
    rw [Rat.floor_def, Rat.num_neg_eq_neg_num, Rat.den_neg_eq_den, ← Int.tdiv_eq_ediv_of_nonneg hn, Int.neg_tdiv]
    omega

/-- The model's `trunc` is the real one (rule R10). -/
theorem truncReal_ratCast (x : Rat) : truncReal (x : ℝ) = trunc x := by
  rw [trunc_eq]
  unfold truncReal
  by_cases h : 0 ≤ x
  · have h' : (0 : ℝ) ≤ (x : ℝ) := by exact_mod_cast h
    rw [if_pos h, if_pos h', Rat.floor_cast]
  · have h' : ¬ (0 : ℝ) ≤ (x : ℝ) := by
      intro k; exact h (by exact_mod_cast k)
    rw [if_neg h, if_neg h', Rat.ceil_cast, ← neg_neg x, Int.ceil_neg, neg_neg]

theorem trunc_neg (x : Rat) : trunc (-x) = -trunc x := by simp [trunc, Int.neg_tdiv]

theorem trunc_intCast (z : Int) : trunc (z : Rat) = z := by simp [trunc]

/-- `trunc` keeps the order (rule R10). -/
theorem trunc_mono {x y : Rat} (h : x ≤ y) : trunc x ≤ trunc y := by
  rw [trunc_eq, trunc_eq]
  split_ifs with h1 h2 h2
  · exact Int.floor_le_floor h
  · linarith
  · have := Int.floor_nonneg.mpr (by linarith : (0 : Rat) ≤ -x)
    have := Int.floor_nonneg.mpr h2
    omega
  · have := Int.floor_le_floor (by linarith : -y ≤ -x)
    omega

/-- Rule R10: `wrap_B` lands in the `B`-bit signed range. -/
theorem wrapB_range {bits : Nat} (h : 1 ≤ bits) (q : Int) :
    -(2 ^ (bits - 1)) ≤ wrapB bits q ∧ wrapB bits q ≤ 2 ^ (bits - 1) - 1 := by
  obtain ⟨m, rfl⟩ := Nat.exists_eq_add_of_le' h
  have hp : (0 : Int) < 2 ^ (m + 1) := by positivity
  have h0 := Int.emod_nonneg (q + 2 ^ m) (ne_of_gt hp)
  have h1 := Int.emod_lt_of_pos (q + 2 ^ m) hp
  have h2 : (2 : Int) ^ (m + 1) = 2 * 2 ^ m := by rw [pow_succ]; ring
  simp only [wrapB, Nat.add_sub_cancel]
  omega

/-- Rule R10: `sat_B` lands in the `B`-bit signed range. -/
theorem satB_range (bits : Nat) (q : Int) :
    -(2 ^ (bits - 1)) ≤ satB bits q ∧ satB bits q ≤ 2 ^ (bits - 1) - 1 := by
  have hp : (0 : Int) < 2 ^ (bits - 1) := by positivity
  simp only [satB]
  omega

/-- Rule R141: a unit draw is at least 0. -/
theorem rngUnit_nonneg (r : RngState) : 0 ≤ (Config.rngUnit r).1 := by
  have := Int.floor_le (Config.rngStep r).1
  simp only [Config.rngUnit]
  rw [sub_nonneg]; exact this

/-- Rule R141: a unit draw is below 1. -/
theorem rngUnit_lt_one (r : RngState) : (Config.rngUnit r).1 < 1 := by
  have := Int.lt_floor_add_one (Config.rngStep r).1
  simp only [Config.rngUnit]
  rw [sub_lt_iff_lt_add']; exact add_comm (1 : Rat) _ ▸ this

/-- A generator whose draw already lies in [0, 1) is used as it is (log entry 4). -/
theorem rngUnit_of_mem {r : RngState} (h0 : 0 ≤ (Config.rngStep r).1) (h1 : (Config.rngStep r).1 < 1) :
    Config.rngUnit r = Config.rngStep r := by
  have : (Config.rngStep r).1.floor = 0 := Int.floor_eq_zero_iff.mpr ⟨h0, h1⟩
  simp [Config.rngUnit, this]

/-- A pair of positive frequencies is used as it is (log entry 3). -/
theorem positivePair_of_pos {p : TonePair} (hl : 0 < p.lo) (hh : 0 < p.hi) : Config.positivePair p = p := by
  simp [Config.positivePair, hl, hh]

theorem positivePair_pos (p : TonePair) : 0 < (Config.positivePair p).lo ∧ 0 < (Config.positivePair p).hi := by
  simp only [Config.positivePair]
  constructor <;> split_ifs <;> first | assumption | exact one_pos

end Sys2Proof.Machine
end

