-- ==== Sys2Proof/Laws/State.lean ====
section
/-! SUPPORT. What each field of the state is after each update the shared operations make: one lemma per field and
update, so that no later proof unfolds a record update. -/

namespace Sys2Proof.Machine

@[simp] theorem respondBare_eq (st : BitVec 4) (s : State) :
    respondBare st s = respond st (Sample.ofRat 0) 0#32 s := rfl
@[simp] theorem respondOk_eq (s : State) : respondOk s = respond stOk (Sample.ofRat 0) 0#32 s := rfl
@[simp] theorem respondFloat_eq (f : Sample) (s : State) : respondFloat f s = respond stOk f 0#32 s := rfl
@[simp] theorem respondInt_eq (i : Word32) (s : State) : respondInt i s = respond stOk (Sample.ofRat 0) i s := rfl
@[simp] theorem refuse_eq (s : State) : refuse s = respond stFaulted (Sample.ofRat 0) 0#32 s := rfl

@[simp] theorem respond_osc (st : BitVec 4) (f : Sample) (i : Word32) (s : State) :
    (respond st f i s).osc = s.osc := rfl
@[simp] theorem respond_env (st : BitVec 4) (f : Sample) (i : Word32) (s : State) :
    (respond st f i s).env = s.env := rfl
@[simp] theorem respond_rng (st : BitVec 4) (f : Sample) (i : Word32) (s : State) :
    (respond st f i s).rng = s.rng := rfl
@[simp] theorem respond_ctrl (st : BitVec 4) (f : Sample) (i : Word32) (s : State) :
    (respond st f i s).ctrl = s.ctrl := rfl
@[simp] theorem respond_ron (st : BitVec 4) (f : Sample) (i : Word32) (s : State) :
    (respond st f i s).ron = s.ron := rfl
@[simp] theorem respond_roff (st : BitVec 4) (f : Sample) (i : Word32) (s : State) :
    (respond st f i s).roff = s.roff := rfl
@[simp] theorem respond_fault (st : BitVec 4) (f : Sample) (i : Word32) (s : State) :
    (respond st f i s).fault = s.fault := rfl
@[simp] theorem respond_fcause (st : BitVec 4) (f : Sample) (i : Word32) (s : State) :
    (respond st f i s).fcause = s.fcause := rfl
@[simp] theorem respond_fcmdl (st : BitVec 4) (f : Sample) (i : Word32) (s : State) :
    (respond st f i s).fcmdl = s.fcmdl := rfl
@[simp] theorem respond_fcmdh (st : BitVec 4) (f : Sample) (i : Word32) (s : State) :
    (respond st f i s).fcmdh = s.fcmdh := rfl
@[simp] theorem respond_tones (st : BitVec 4) (f : Sample) (i : Word32) (s : State) :
    (respond st f i s).tones = s.tones := rfl
@[simp] theorem respond_cmd (st : BitVec 4) (f : Sample) (i : Word32) (s : State) :
    (respond st f i s).cmd = s.cmd := rfl
@[simp] theorem respond_fin (st : BitVec 4) (f : Sample) (i : Word32) (s : State) :
    (respond st f i s).fin = s.fin := rfl
@[simp] theorem respond_rsp (st : BitVec 4) (f : Sample) (i : Word32) (s : State) :
    (respond st f i s).rsp = some ⟨st, f, i⟩ := rfl
@[simp] theorem respond_inbox (st : BitVec 4) (f : Sample) (i : Word32) (s : State) :
    (respond st f i s).inbox = s.inbox := rfl
@[simp] theorem respond_resets (st : BitVec 4) (f : Sample) (i : Word32) (s : State) :
    (respond st f i s).resets = s.resets := rfl

@[simp] theorem afterDraw_osc (s : State) : (afterDraw s).osc = s.osc := rfl
@[simp] theorem afterDraw_env (s : State) : (afterDraw s).env = s.env := rfl
@[simp] theorem afterDraw_rng (s : State) : (afterDraw s).rng = (Config.rngUnit s.rng).2 := rfl
@[simp] theorem afterDraw_ctrl (s : State) : (afterDraw s).ctrl = s.ctrl := rfl
@[simp] theorem afterDraw_ron (s : State) : (afterDraw s).ron = s.ron := rfl
@[simp] theorem afterDraw_roff (s : State) : (afterDraw s).roff = s.roff := rfl
@[simp] theorem afterDraw_fault (s : State) : (afterDraw s).fault = s.fault := rfl
@[simp] theorem afterDraw_fcause (s : State) : (afterDraw s).fcause = s.fcause := rfl
@[simp] theorem afterDraw_fcmdl (s : State) : (afterDraw s).fcmdl = s.fcmdl := rfl
@[simp] theorem afterDraw_fcmdh (s : State) : (afterDraw s).fcmdh = s.fcmdh := rfl
@[simp] theorem afterDraw_tones (s : State) : (afterDraw s).tones = s.tones := rfl
@[simp] theorem afterDraw_cmd (s : State) : (afterDraw s).cmd = s.cmd := rfl
@[simp] theorem afterDraw_fin (s : State) : (afterDraw s).fin = s.fin := rfl
@[simp] theorem afterDraw_rsp (s : State) : (afterDraw s).rsp = s.rsp := rfl
@[simp] theorem afterDraw_inbox (s : State) : (afterDraw s).inbox = s.inbox := rfl
@[simp] theorem afterDraw_resets (s : State) : (afterDraw s).resets = s.resets := rfl

@[simp] theorem raise_osc (c : Cause) (s : State) : (raise c s).osc = s.osc := rfl
@[simp] theorem raise_env (c : Cause) (s : State) : (raise c s).env = s.env := rfl
@[simp] theorem raise_rng (c : Cause) (s : State) : (raise c s).rng = s.rng := rfl
@[simp] theorem raise_ctrl (c : Cause) (s : State) : (raise c s).ctrl = s.ctrl := rfl
@[simp] theorem raise_ron (c : Cause) (s : State) : (raise c s).ron = s.ron := rfl
@[simp] theorem raise_roff (c : Cause) (s : State) : (raise c s).roff = s.roff := rfl
@[simp] theorem raise_fault (c : Cause) (s : State) : (raise c s).fault = true := rfl
@[simp] theorem raise_fcause (c : Cause) (s : State) : (raise c s).fcause = Cause.code c := rfl
@[simp] theorem raise_fcmdl (c : Cause) (s : State) : (raise c s).fcmdl = cmdLow s.cmd := rfl
@[simp] theorem raise_fcmdh (c : Cause) (s : State) : (raise c s).fcmdh = cmdHigh s.cmd := rfl
@[simp] theorem raise_tones (c : Cause) (s : State) : (raise c s).tones = s.tones := rfl
@[simp] theorem raise_cmd (c : Cause) (s : State) : (raise c s).cmd = s.cmd := rfl
@[simp] theorem raise_fin (c : Cause) (s : State) : (raise c s).fin = s.fin := rfl
@[simp] theorem raise_rsp (c : Cause) (s : State) : (raise c s).rsp = some ⟨Cause.code c, Sample.ofRat 0, 0#32⟩ := rfl
@[simp] theorem raise_inbox (c : Cause) (s : State) : (raise c s).inbox = s.inbox := rfl
@[simp] theorem raise_resets (c : Cause) (s : State) : (raise c s).resets = s.resets := rfl

@[simp] theorem returnFromFault_osc (s : State) : (returnFromFault s).osc = none := rfl
@[simp] theorem returnFromFault_env (s : State) : (returnFromFault s).env = none := rfl
@[simp] theorem returnFromFault_rng (s : State) : (returnFromFault s).rng = s.rng := rfl
@[simp] theorem returnFromFault_ctrl (s : State) : (returnFromFault s).ctrl = s.ctrl := rfl
@[simp] theorem returnFromFault_ron (s : State) : (returnFromFault s).ron = s.ron := rfl
@[simp] theorem returnFromFault_roff (s : State) : (returnFromFault s).roff = s.roff := rfl
@[simp] theorem returnFromFault_fault (s : State) : (returnFromFault s).fault = false := rfl
@[simp] theorem returnFromFault_fcause (s : State) : (returnFromFault s).fcause = 0#4 := rfl
@[simp] theorem returnFromFault_fcmdl (s : State) : (returnFromFault s).fcmdl = 0#32 := rfl
@[simp] theorem returnFromFault_fcmdh (s : State) : (returnFromFault s).fcmdh = 0#32 := rfl
@[simp] theorem returnFromFault_tones (s : State) : (returnFromFault s).tones = s.tones := rfl
@[simp] theorem returnFromFault_cmd (s : State) : (returnFromFault s).cmd = s.cmd := rfl
@[simp] theorem returnFromFault_fin (s : State) : (returnFromFault s).fin = s.fin := rfl
@[simp] theorem returnFromFault_rsp (s : State) : (returnFromFault s).rsp = s.rsp := rfl
@[simp] theorem returnFromFault_inbox (s : State) : (returnFromFault s).inbox = s.inbox := rfl
@[simp] theorem returnFromFault_resets (s : State) : (returnFromFault s).resets = s.resets := rfl

@[simp] theorem latch_osc (w : CmdWord) (x : FloatIn) (s : State) : (latch w x s).osc = s.osc := rfl
@[simp] theorem latch_env (w : CmdWord) (x : FloatIn) (s : State) : (latch w x s).env = s.env := rfl
@[simp] theorem latch_rng (w : CmdWord) (x : FloatIn) (s : State) : (latch w x s).rng = s.rng := rfl
@[simp] theorem latch_ctrl (w : CmdWord) (x : FloatIn) (s : State) : (latch w x s).ctrl = s.ctrl := rfl
@[simp] theorem latch_ron (w : CmdWord) (x : FloatIn) (s : State) : (latch w x s).ron = s.ron := rfl
@[simp] theorem latch_roff (w : CmdWord) (x : FloatIn) (s : State) : (latch w x s).roff = s.roff := rfl
@[simp] theorem latch_fault (w : CmdWord) (x : FloatIn) (s : State) : (latch w x s).fault = s.fault := rfl
@[simp] theorem latch_fcause (w : CmdWord) (x : FloatIn) (s : State) : (latch w x s).fcause = s.fcause := rfl
@[simp] theorem latch_fcmdl (w : CmdWord) (x : FloatIn) (s : State) : (latch w x s).fcmdl = s.fcmdl := rfl
@[simp] theorem latch_fcmdh (w : CmdWord) (x : FloatIn) (s : State) : (latch w x s).fcmdh = s.fcmdh := rfl
@[simp] theorem latch_tones (w : CmdWord) (x : FloatIn) (s : State) : (latch w x s).tones = s.tones := rfl
@[simp] theorem latch_cmd (w : CmdWord) (x : FloatIn) (s : State) : (latch w x s).cmd = w := rfl
@[simp] theorem latch_fin (w : CmdWord) (x : FloatIn) (s : State) : (latch w x s).fin = x := rfl
@[simp] theorem latch_rsp (w : CmdWord) (x : FloatIn) (s : State) : (latch w x s).rsp = s.rsp := rfl
@[simp] theorem latch_inbox (w : CmdWord) (x : FloatIn) (s : State) : (latch w x s).inbox = s.inbox := rfl
@[simp] theorem latch_resets (w : CmdWord) (x : FloatIn) (s : State) : (latch w x s).resets = s.resets := rfl

@[simp] theorem takeEvent_osc (es : List HostEvent) (s : State) : (takeEvent es s).osc = s.osc := rfl
@[simp] theorem takeEvent_env (es : List HostEvent) (s : State) : (takeEvent es s).env = s.env := rfl
@[simp] theorem takeEvent_rng (es : List HostEvent) (s : State) : (takeEvent es s).rng = s.rng := rfl
@[simp] theorem takeEvent_ctrl (es : List HostEvent) (s : State) : (takeEvent es s).ctrl = s.ctrl := rfl
@[simp] theorem takeEvent_ron (es : List HostEvent) (s : State) : (takeEvent es s).ron = s.ron := rfl
@[simp] theorem takeEvent_roff (es : List HostEvent) (s : State) : (takeEvent es s).roff = s.roff := rfl
@[simp] theorem takeEvent_fault (es : List HostEvent) (s : State) : (takeEvent es s).fault = s.fault := rfl
@[simp] theorem takeEvent_fcause (es : List HostEvent) (s : State) : (takeEvent es s).fcause = s.fcause := rfl
@[simp] theorem takeEvent_fcmdl (es : List HostEvent) (s : State) : (takeEvent es s).fcmdl = s.fcmdl := rfl
@[simp] theorem takeEvent_fcmdh (es : List HostEvent) (s : State) : (takeEvent es s).fcmdh = s.fcmdh := rfl
@[simp] theorem takeEvent_tones (es : List HostEvent) (s : State) : (takeEvent es s).tones = s.tones := rfl
@[simp] theorem takeEvent_cmd (es : List HostEvent) (s : State) : (takeEvent es s).cmd = s.cmd := rfl
@[simp] theorem takeEvent_fin (es : List HostEvent) (s : State) : (takeEvent es s).fin = s.fin := rfl
@[simp] theorem takeEvent_rsp (es : List HostEvent) (s : State) : (takeEvent es s).rsp = s.rsp := rfl
@[simp] theorem takeEvent_inbox (es : List HostEvent) (s : State) : (takeEvent es s).inbox = es := rfl
@[simp] theorem takeEvent_resets (es : List HostEvent) (s : State) : (takeEvent es s).resets = s.resets := rfl

@[simp] theorem hardReset_osc (s : State) : (hardReset s).osc = none := rfl
@[simp] theorem hardReset_env (s : State) : (hardReset s).env = none := rfl
@[simp] theorem hardReset_rng (s : State) : (hardReset s).rng = Config.rngReset (s.resets + 1) := rfl
@[simp] theorem hardReset_ctrl (s : State) : (hardReset s).ctrl = 0#32 := rfl
@[simp] theorem hardReset_ron (s : State) : (hardReset s).ron = Config.rollDefault := rfl
@[simp] theorem hardReset_roff (s : State) : (hardReset s).roff = Config.rollDefault := rfl
@[simp] theorem hardReset_fault (s : State) : (hardReset s).fault = false := rfl
@[simp] theorem hardReset_fcause (s : State) : (hardReset s).fcause = 0#4 := rfl
@[simp] theorem hardReset_fcmdl (s : State) : (hardReset s).fcmdl = 0#32 := rfl
@[simp] theorem hardReset_fcmdh (s : State) : (hardReset s).fcmdh = 0#32 := rfl
@[simp] theorem hardReset_tones (s : State) : (hardReset s).tones = s.tones := rfl
@[simp] theorem hardReset_cmd (s : State) : (hardReset s).cmd = s.cmd := rfl
@[simp] theorem hardReset_fin (s : State) : (hardReset s).fin = s.fin := rfl
@[simp] theorem hardReset_rsp (s : State) : (hardReset s).rsp = none := rfl
@[simp] theorem hardReset_inbox (s : State) : (hardReset s).inbox = s.inbox := rfl
@[simp] theorem hardReset_resets (s : State) : (hardReset s).resets = s.resets + 1 := rfl

end Sys2Proof.Machine
end

