-- ==== Sys2Proof/Laws/Ops.lean ====
section
/-! SUPPORT. What each shared operation can do, said once, and the inversion of `exec`: a command is refused, or
raises a fault, or does its own effect (`Completed`). Later proofs cite these and do not unfold the meanings. -/

namespace Sys2Proof.Machine

theorem unlessFaulted_of_faulted {s : State} (h : s.fault = true) (b : State) : unlessFaulted s b = refuse s := by
  simp [unlessFaulted, h]

theorem unlessFaulted_of_ready {s : State} (h : s.fault = false) (b : State) : unlessFaulted s b = b := by
  simp [unlessFaulted, h]

@[simp] theorem readCfg_ctrl (s : State) : readCfg .ctrl s = ctrlWord s := rfl
@[simp] theorem readCfg_ron (s : State) : readCfg .ron s = s.ron := rfl
@[simp] theorem readCfg_roff (s : State) : readCfg .roff s = s.roff := rfl
@[simp] theorem readCfg_status (s : State) : readCfg .status s = statusWord s := rfl
@[simp] theorem readCfg_fcmdl (s : State) : readCfg .fcmdl s = s.fcmdl := rfl
@[simp] theorem readCfg_fcmdh (s : State) : readCfg .fcmdh s = s.fcmdh := rfl

/-- Everything a register write can do (rule R176). -/
theorem writeCfg_cases (r : CfgReg) (v : Word32) (s : State) :
    (∃ c, writeCfg r v s = raise c s) ∨
    (r = .ctrl ∧ v >>> 2 = 0#32 ∧ writeCfg r v s = respondOk { s with ctrl := v }) ∨
    (r = .ron ∧ writeCfg r v s = respondOk { s with ron := v }) ∨
    (r = .roff ∧ writeCfg r v s = respondOk { s with roff := v }) := by
  cases r with
  | ctrl =>
    by_cases h : v >>> 2 = 0#32
    · exact .inr (.inl ⟨rfl, h, by simp [writeCfg, h]⟩)
    · exact .inl ⟨.badParam, by simp [writeCfg, h]⟩
  | ron => exact .inr (.inr (.inl ⟨rfl, rfl⟩))
  | roff => exact .inr (.inr (.inr ⟨rfl, rfl⟩))
  | status => exact .inl ⟨.illegal, rfl⟩
  | fcmdl => exact .inl ⟨.illegal, rfl⟩
  | fcmdh => exact .inl ⟨.illegal, rfl⟩

theorem cfgReg_isSome {reg : Nat} : (cfgReg reg).isSome = decide (reg ≤ 5) := by
  unfold cfgReg
  split <;> simp_all
  omega

theorem cfgReg_of_le {reg : Nat} (h : reg ≤ 5) : ∃ r, cfgReg reg = some r := by
  have hs := cfgReg_isSome (reg := reg)
  rw [decide_eq_true h] at hs
  exact Option.isSome_iff_exists.mp hs

theorem cfgReg_of_gt {reg : Nat} (h : 5 < reg) : cfgReg reg = none := by
  have hs := cfgReg_isSome (reg := reg)
  rw [decide_eq_false (by omega)] at hs
  exact Option.isNone_iff_eq_none.mp (by simpa using hs)

/-- The index of each writable register (rule R30). -/
theorem cfgReg_index {reg : Nat} {r : CfgReg} (h : cfgReg reg = some r) :
    (r = .ctrl → reg = 0) ∧ (r = .ron → reg = 1) ∧ (r = .roff → reg = 2) := by
  unfold cfgReg at h
  split at h <;> cases h <;> simp

/-- A symbol code of the alphabet names its own place there, and no other code names one (rule R76). -/
theorem symbolIndex_alphabet :
    ∀ (j : Fin 16) (sym : Byte), RefHost.alphabet[j.val]? = some sym → symbolIndex sym = some j := by decide

theorem symbolIndex_none : ∀ sym : Byte, sym ∉ RefHost.alphabet → symbolIndex sym = none := by decide

theorem symbolIndex_some : ∀ sym : Byte, sym ∈ RefHost.alphabet → ∃ j, symbolIndex sym = some j := by decide

/-- The command's own effect: `t` is the state it leaves when it is neither refused nor faults. -/
def Completed (i : Instr) (s t : State) : Prop :=
  match i with
  | .oscStart sym rate => s.fault = false ∧ ∃ p, toneOf sym s = some p ∧ rate ≠ 0 ∧ t = oscBegin p rate s
  | .oscNext => s.fault = false ∧ ∃ o, s.osc = some o ∧ o.n ≠ Config.idxLimit ∧
      t = respondFloat (o.sampleAt o.n) { s with osc := some { o with n := o.n + 1 } }
  | .envStart uo n => s.fault = false ∧ ¬(0 < n ∧ 0 < rollOff uo s ∧ releaseDivisor uo s = 0) ∧
      t = respondOk { s with env := some (envCreate uo n s) }
  | .envNext => s.fault = false ∧ ∃ e, s.env = some e ∧
      (e.k = e.total ∧ t = respondBare stEnd s ∨
       e.k ≠ e.total ∧ t = respondFloat (gain e e.k) { s with env := some { e with k := e.k + 1 } })
  | .nseNext => s.fault = false ∧ t = respondFloat (Sample.ofRat (noiseOf (drawnUnit s))) (afterDraw s)
  | .rngDraw => s.fault = false ∧ t = respondFloat (Sample.ofRat (drawnUnit s)) (afterDraw s)
  | .rngSeed seed => s.fault = false ∧ t = respondOk { s with rng := Config.rngSeed seed }
  | .qnt depth => s.fault = false ∧ ∃ x, s.fin = .finite x ∧ 1 ≤ depth ∧ depth ≤ Config.bMax ∧
      t = respondInt (sext32 (quantized (satMode s) depth x)) s
  | .wrc reg v => s.fault = false ∧
      (cfgReg reg = some .ctrl ∧ v >>> 2 = 0#32 ∧ t = respondOk { s with ctrl := v } ∨
       cfgReg reg = some .ron ∧ t = respondOk { s with ron := v } ∨
       cfgReg reg = some .roff ∧ t = respondOk { s with roff := v })
  | .rdc reg => ∃ r, cfgReg reg = some r ∧ t = respondInt (readCfg r s) s
  | .clr => t = respondOk (returnFromFault s)

/-- Everything `exec` can do. -/
theorem exec_cases (i : Instr) (s : State) :
    (s.fault = true ∧ exec i s = .next (refuse s)) ∨
    (s.fault = false ∧ ∃ c, exec i s = .next (raise c s)) ∨
    (∃ t, exec i s = .next t ∧ Completed i s t) := by
  have refusedOr : ∀ (b : State), (s.fault = false →
      (∃ c, b = raise c s) ∨ Completed i s b) → exec i s = .next (unlessFaulted s b) →
      (s.fault = true ∧ exec i s = .next (refuse s)) ∨
      (s.fault = false ∧ ∃ c, exec i s = .next (raise c s)) ∨
      (∃ t, exec i s = .next t ∧ Completed i s t) := by
    intro b hb he
    cases hf : s.fault with
    | true => exact .inl ⟨rfl, by rw [he, unlessFaulted_of_faulted hf]⟩
    | false =>
      rw [unlessFaulted_of_ready hf] at he
      rcases hb hf with ⟨c, rfl⟩ | hc
      · exact .inr (.inl ⟨rfl, c, he⟩)
      · exact .inr (.inr ⟨b, he, hc⟩)
  cases i with
  | oscStart sym rate =>
    refine refusedOr _ (fun hf => ?_) rfl
    split
    · exact .inl ⟨_, rfl⟩
    · rename_i p hp
      split_ifs with hr
      · exact .inl ⟨_, rfl⟩
      · exact .inr ⟨hf, p, hp, hr, rfl⟩
  | oscNext =>
    refine refusedOr _ (fun hf => ?_) rfl
    split
    · exact .inl ⟨_, rfl⟩
    · rename_i o ho
      split_ifs with hn
      · exact .inl ⟨_, rfl⟩
      · exact .inr ⟨hf, o, ho, hn, rfl⟩
  | envStart uo n =>
    refine refusedOr _ (fun hf => ?_) rfl
    split_ifs with hd
    · exact .inl ⟨_, rfl⟩
    · exact .inr ⟨hf, hd, rfl⟩
  | envNext =>
    refine refusedOr _ (fun hf => ?_) rfl
    split
    · exact .inl ⟨_, rfl⟩
    · rename_i e he
      split_ifs with hk
      · exact .inr ⟨hf, e, he, .inl ⟨hk, rfl⟩⟩
      · exact .inr ⟨hf, e, he, .inr ⟨hk, rfl⟩⟩
  | nseNext => exact refusedOr _ (fun hf => .inr ⟨hf, rfl⟩) rfl
  | rngDraw => exact refusedOr _ (fun hf => .inr ⟨hf, rfl⟩) rfl
  | rngSeed seed => exact refusedOr _ (fun hf => .inr ⟨hf, rfl⟩) rfl
  | qnt depth =>
    refine refusedOr _ (fun hf => ?_) rfl
    split_ifs with hb
    · exact .inl ⟨_, rfl⟩
    · split
      · rename_i x hx
        exact .inr ⟨hf, x, hx, by omega, by omega, rfl⟩
      all_goals exact .inl ⟨_, rfl⟩
  | wrc reg v =>
    refine refusedOr _ (fun hf => ?_) rfl
    split
    · rename_i r hr
      rcases writeCfg_cases r v s with ⟨c, h⟩ | ⟨rfl, hv, h⟩ | ⟨rfl, h⟩ | ⟨rfl, h⟩
      · exact .inl ⟨c, h⟩
      · exact .inr ⟨hf, .inl ⟨hr, hv, h⟩⟩
      · exact .inr ⟨hf, .inr (.inl ⟨hr, h⟩)⟩
      · exact .inr ⟨hf, .inr (.inr ⟨hr, h⟩)⟩
    · exact .inl ⟨_, rfl⟩
  | rdc reg =>
    cases hr : cfgReg reg with
    | some r => exact .inr (.inr ⟨_, by simp only [exec, execRdc, hr], r, hr, rfl⟩)
    | none =>
      exact refusedOr (raise .illegal s) (fun _ => .inl ⟨_, rfl⟩) (by simp only [exec, execRdc, hr])
  | clr => exact .inr (.inr ⟨_, rfl, rfl⟩)

end Sys2Proof.Machine
end

