-- ==== Sys2Proof/Laws/PerInstr.lean ====
section
/-! SUPPORT. Facts about every command as syntax, one lemma per constructor: the encoding of a command is a word of the
command's own row of rule R73's table. -/

namespace Sys2Proof.Laws

/-- The bits of a word of format `C` under a mask made of field masks. -/
theorem formatC_and (op a : Byte) (imm : Word32) (mOp mA : Byte) (mZ : BitVec 16) (mImm : Word32) :
    formatC op a imm &&& (mOp ++ mA ++ mZ ++ mImm) = (op &&& mOp) ++ (a &&& mA) ++ 0#16 ++ (imm &&& mImm) := by
  exact BitVec.and_append.trans (by rw [BitVec.and_append, BitVec.and_append, BitVec.zero_and])

namespace EncodeMatchesRow

/-- The word of `i` is covered by the row of the opcode table that bears `i`'s mnemonic (rule R73). -/
def Statement (i : Instr) : Prop := ∃ r ∈ opcodeRows, r.mnemonic = i.mnemonic ∧ r.covers (encode i) = true

theorem oscStart (sym : Byte) (rate : Nat) : Statement (.oscStart sym rate) := by
  refine ⟨⟨"OSC.START", 0x1000000000000000#64, 0xFF00FFFF00000000#64⟩, by simp [opcodeRows], rfl, ?_⟩
  have := formatC_and 0x10#8 sym (BitVec.ofNat 32 rate) 0xFF#8 0x00#8 0xFFFF#16 0#32
  simp only [Row.covers, encode, beq_iff_eq]
  exact this.trans (by simp)

theorem oscNext : Statement .oscNext := ⟨⟨"OSC.NEXT", 0x1100000000000000#64, 0xFFFFFFFFFFFFFFFF#64⟩, by decide⟩

theorem envStart (uo : Bool) (n : Nat) : Statement (.envStart uo n) := by
  refine ⟨⟨"ENV.START", 0x2000000000000000#64, 0xFFFEFFFF00000000#64⟩, by simp [opcodeRows], rfl, ?_⟩
  have := formatC_and 0x20#8 (if uo then 1#8 else 0#8) (BitVec.ofNat 32 n) 0xFF#8 0xFE#8 0xFFFF#16 0#32
  simp only [Row.covers, encode, beq_iff_eq]
  exact this.trans (by cases uo <;> simp)

theorem envNext : Statement .envNext := ⟨⟨"ENV.NEXT", 0x2100000000000000#64, 0xFFFFFFFFFFFFFFFF#64⟩, by decide⟩

theorem nseNext : Statement .nseNext := ⟨⟨"NSE.NEXT", 0x3000000000000000#64, 0xFFFFFFFFFFFFFFFF#64⟩, by decide⟩

theorem rngDraw : Statement .rngDraw := ⟨⟨"RNG.DRAW", 0x3100000000000000#64, 0xFFFFFFFFFFFFFFFF#64⟩, by decide⟩

theorem rngSeed (seed : Word32) : Statement (.rngSeed seed) := by
  refine ⟨⟨"RNG.SEED", 0x3200000000000000#64, 0xFFFFFFFF00000000#64⟩, by simp [opcodeRows], rfl, ?_⟩
  have := formatC_and 0x32#8 0#8 seed 0xFF#8 0xFF#8 0xFFFF#16 0#32
  simp only [Row.covers, encode, beq_iff_eq]
  exact this.trans (by simp)

theorem qnt (depth : Nat) : Statement (.qnt depth) := by
  refine ⟨⟨"QNT", 0x4000000000000000#64, 0xFF00FFFFFFFFFFFF#64⟩, by simp [opcodeRows], rfl, ?_⟩
  have := formatC_and 0x40#8 (BitVec.ofNat 8 depth) 0#32 0xFF#8 0x00#8 0xFFFF#16 0xFFFFFFFF#32
  simp only [Row.covers, encode, beq_iff_eq]
  exact this.trans (by simp)

theorem wrc (reg : Nat) (value : Word32) : Statement (.wrc reg value) := by
  refine ⟨⟨"WRC", 0x5000000000000000#64, 0xFF00FFFF00000000#64⟩, by simp [opcodeRows], rfl, ?_⟩
  have := formatC_and 0x50#8 (BitVec.ofNat 8 reg) value 0xFF#8 0x00#8 0xFFFF#16 0#32
  simp only [Row.covers, encode, beq_iff_eq]
  exact this.trans (by simp)

theorem rdc (reg : Nat) : Statement (.rdc reg) := by
  refine ⟨⟨"RDC", 0x5100000000000000#64, 0xFF00FFFFFFFFFFFF#64⟩, by simp [opcodeRows], rfl, ?_⟩
  have := formatC_and 0x51#8 (BitVec.ofNat 8 reg) 0#32 0xFF#8 0x00#8 0xFFFF#16 0xFFFFFFFF#32
  simp only [Row.covers, encode, beq_iff_eq]
  exact this.trans (by simp)

theorem clr : Statement .clr := ⟨⟨"CLR", 0x5200000000000000#64, 0xFFFFFFFFFFFFFFFF#64⟩, by decide⟩

end EncodeMatchesRow
end Sys2Proof.Laws
end

