-- ==== Sys2Proof/Tests/Slice0.lean ====
section
/-! SUPPORT. Tests. Expected results are the spec's: 95_test_vectors.md by the names it gives its vectors, the examples
of the rules, or hand calculation from the rules' formulas. `test_witness_…` theorems show concrete states and operands
that meet the hypotheses of a statement of the Obligations file, clause by clause. `decide +kernel` stands where
rational arithmetic is evaluated; it is the kernel's own evaluation and adds no axiom. -/

namespace Sys2Proof.Tests

set_option Elab.async false

open Sys2Proof Sys2Proof.Machine

/-! ## Small states -/

/-- No instance, no fault, `RON = 2`, `ROFF = 3`, the default Tone Table. -/
def s0 : State :=
  { osc := none, env := none, rng := 0, ctrl := 0#32, ron := 2#32, roff := 3#32, fault := false, fcause := 0#4,
    fcmdl := 0#32, fcmdh := 0#32, tones := Config.toneDefault, cmd := 0#64, fin := .finite 0, rsp := none,
    inbox := [], resets := 0 }

/-- `s0` in fault state after `OSC.START 0x45, 8000` (program P4). -/
def sFault : State := { s0 with fault := true, fcause := 0x9#4, fcmdl := 0x00001F40#32, fcmdh := 0x10450000#32 }

/-- The instance of vector O1 at index `n`. -/
def oscAt (n : Nat) : OscInst :=
  { fLo := 697, fHi := 1209, phiLo := ⟨0⟩, phiHi := ⟨0⟩, rate := 8000, n := n }

/-- `s0` with an oscillator instance at index `n`. -/
def sOsc (n : Nat) : State := { s0 with osc := some (oscAt n) }

/-- The instance of vector V1 (N 8, ron 2, roff 2, d 2) at index `k`. -/
def envAt (k : Nat) : EnvInst := { total := 8, ron := 2, roff := 2, d := 2, k := k }

/-- `s0` with that envelope instance. -/
def sEnv (k : Nat) : State := { s0 with env := some (envAt k) }

/-- Both instances, in fault state: vector K14's start. -/
def sBoth : State := { sFault with osc := some (oscAt 1), env := some (envAt 3) }

/-- The state a result goes on with. -/
def after (r : Result) : State :=
  match r with
  | .next t => t
  | .fault _ => s0
  | .refused _ => s0

/-- The status, integer and `STATUS` after presenting a word beside `fin = 1.0`. -/
def seen (w : CmdWord) (s : State) : Option (BitVec 4 × Word32) × Word32 :=
  let t := after (present w (.finite 1) s)
  (t.rsp.map fun r => (r.st, r.i), statusWord t)

/-! ## Well-formedness: an ill-formed term for each check -/

theorem test_wf_refuses_a_rate_of_33_bits : (Instr.oscStart 0x31#8 4294967296).wellFormed = false := by decide
theorem test_wf_refuses_a_count_of_33_bits : (Instr.envStart false 4294967296).wellFormed = false := by decide
theorem test_wf_refuses_a_depth_of_9_bits : (Instr.qnt 256).wellFormed = false := by decide
theorem test_wf_refuses_a_written_index_of_9_bits : (Instr.wrc 256 0#32).wellFormed = false := by decide
theorem test_wf_refuses_a_read_index_of_9_bits : (Instr.rdc 256).wellFormed = false := by decide

theorem test_wf_accepts_the_largest_operands :
    (Instr.oscStart 0xFF#8 4294967295).wellFormed = true ∧ (Instr.envStart true 4294967295).wellFormed = true ∧
    (Instr.qnt 255).wellFormed = true ∧ (Instr.wrc 255 0xFFFFFFFF#32).wellFormed = true ∧
    (Instr.rdc 255).wellFormed = true := by decide

/-! ## Decoding: one word or more for every constructor, written out from rule R73's patterns -/

/-- `10 ss 0000 rrrrrrrr`, with `'5'` = 0x35 and 8000 = 0x1F40 (rule R103). -/
theorem test_decode_oscStart : decode 0x1035000000001F40#64 = .ok (.oscStart 0x35#8 8000) := by decide

theorem test_decode_oscNext : decode 0x1100000000000000#64 = .ok .oscNext := by decide

/-- `20 0u 0000 nnnnnnnn` with u = 0 and u = 1, 0x640 = 1600 (program P5, vector E20). -/
theorem test_decode_envStart :
    decode 0x2000000000000640#64 = .ok (.envStart false 1600) ∧
    decode 0x2001000000000008#64 = .ok (.envStart true 8) := by decide

theorem test_decode_envNext : decode 0x2100000000000000#64 = .ok .envNext := by decide
theorem test_decode_nseNext : decode 0x3000000000000000#64 = .ok .nseNext := by decide
theorem test_decode_rngDraw : decode 0x3100000000000000#64 = .ok .rngDraw := by decide

/-- Vector X7: the largest seed. -/
theorem test_decode_rngSeed : decode 0x32000000FFFFFFFF#64 = .ok (.rngSeed 0xFFFFFFFF#32) := by decide

/-- `40 bb 0000 00000000`: B = 24 is 0x18 (section 2.5 of the vectors). -/
theorem test_decode_qnt : decode 0x4018000000000000#64 = .ok (.qnt 24) := by decide

/-- Vector K1: `WRC RON, 40`. -/
theorem test_decode_wrc : decode 0x5001000000000028#64 = .ok (.wrc 1 40#32) := by decide

/-- Vector E11: index 6 is a legal encoding. -/
theorem test_decode_rdc : decode 0x5106000000000000#64 = .ok (.rdc 6) := by decide

theorem test_decode_clr : decode 0x5200000000000000#64 = .ok .clr := by decide

/-- Vectors E1 to E10: words that are no command. -/
theorem test_decode_rejects_by_name :
    decode 0x0000000000000000#64 = .error .unassignedOp ∧ decode 0xFFFFFFFFFFFFFFFF#64 = .error .unassignedOp ∧
    decode 0x1200000000000000#64 = .error .unassignedOp ∧ decode 0x5300000000000000#64 = .error .unassignedOp ∧
    decode 0x1100000000000001#64 = .error .nonzeroImm ∧ decode 0x1031000100001F40#64 = .error .nonzeroZ ∧
    decode 0x2002000000000008#64 = .error .nonzeroA ∧ decode 0x3201000000000000#64 = .error .nonzeroA ∧
    decode 0x4010000000000001#64 = .error .nonzeroImm ∧ decode 0x5200000000000001#64 = .error .nonzeroImm := by decide

/-- Rule R52's example, read back; and the response integer of vector Q2, 0xFFFF8000, written out by hand. -/
theorem test_bytes_least_significant_first :
    decodeBytes [0x40#8, 0x1F#8, 0#8, 0#8, 0#8, 0#8, 0x31#8, 0x10#8, 0xAA#8]
      = .ok (.oscStart 0x31#8 8000, [0xAA#8]) ∧
    (⟨0x0#4, Sample.ofRat 0, 0xFFFF8000#32⟩ : Response).intBytes = [0x00#8, 0x80#8, 0xFF#8, 0xFF#8] ∧
    resultOfBytes [0x40#8, 0x1F#8, 0x01#8, 0x02#8] = some 0x02011F40#32 ∧ resultOfBytes [0#8, 0#8, 0#8] = none := by
  decide

/-- The table's numbering, and rule R84's and R85's written forms. -/
theorem test_table_word_and_syntax :
    decodeTableWord 64 0x5001000000000028 = some (.wrc 1 40#32) ∧ decodeTableWord 64 0 = none ∧
    (Instr.wrc 1 40#32).written = "WRC RON, 40" ∧ (Instr.envStart true 8).written = "ENV.START 8, ROFF" ∧
    (Pseudo.roll 5#32).expand.map encode = [0x5001000000000005#64, 0x5002000000000005#64] := by decide

/-! ## One step -/

/-- Vectors E1, E5, E7: `E_ILLEGAL`, and the record of the whole word. -/
theorem test_illegal_words :
    seen 0x0000000000000000#64 s0 = (some (0x8#4, 0#32), 0x00000801#32) ∧
    seen 0x1100000000000001#64 s0 = (some (0x8#4, 0#32), 0x00000801#32) ∧
    (after (present 0x2002000000000008#64 (.finite 1) s0)).fcmdh = 0x20020000#32 ∧
    (after (present 0x2002000000000008#64 (.finite 1) s0)).fcmdl = 0x00000008#32 := by decide +kernel

/-- The example of rule R103 (default table), whatever the draws are: two of them, in order. -/
theorem test_oscStart_takes_the_tone_pair :
    (after (present 0x1035000000001F40#64 (.finite 1) s0)).osc.map (fun o => (o.fLo, o.fHi, o.rate, o.n))
      = some (770, 1336, 8000, 0) := by decide +kernel

/-- Vectors E15 and E16: the symbol is checked before the rate. -/
theorem test_oscStart_checks_symbol_then_rate :
    seen 0x1031000000000000#64 s0 = (some (0xA#4, 0#32), 0x00000A01#32) ∧
    seen 0x1045000000000000#64 s0 = (some (0x9#4, 0#32), 0x00000901#32) := by decide +kernel

/-- The example of rule R105: phases π/2 and π give −0.5 at index 0. -/
theorem test_oscNext_of_the_example :
    (after (exec .oscNext { s0 with osc := some ⟨770, 1336, ⟨1 / 2⟩, ⟨1⟩, 8000, 0⟩ })).rsp
      = some ⟨0x0#4, Sample.ofRat (-1 / 2), 0#32⟩ := by decide +kernel

/-- Vector O13: the last index answers and sets `OSC_OVF`; the next `OSC.NEXT` faults `E_IDXOVF`. -/
theorem test_oscNext_runs_out :
    seen 0x1100000000000000#64 (sOsc 4294967295) = (some (0x0#4, 0#32), 0x00000012#32) ∧
    seen 0x1100000000000000#64 (sOsc 4294967296) = (some (0xC#4, 0#32), 0x00000C13#32) := by decide +kernel

/-- Vectors V14 and V13: divisor 0 faults in reference mode, and not in corrected mode. -/
theorem test_envStart_zero_divisor :
    seen 0x2001000000000005#64 { s0 with ron := 0#32, roff := 2#32 } = (some (0xA#4, 0#32), 0x00000A01#32) ∧
    seen 0x2001000000000005#64 { s0 with ron := 0#32, roff := 2#32, ctrl := 1#32 }
      = (some (0x0#4, 0#32), 0x00000004#32) := by decide +kernel

/-- Vectors V15 and V20: an empty envelope is at its end; `UO = 0` ignores `ROFF`. -/
theorem test_envStart_empty_and_default_roll_off :
    seen 0x2001000000000000#64 { s0 with ron := 0#32 } = (some (0x0#4, 0#32), 0x0000000C#32) ∧
    (after (exec (.envStart false 8) { s0 with roff := 7#32 })).env = some (envAt 0) := by decide +kernel

/-- Vectors V1 and V18: the second gain is −0.5, the eighth 0.5; then `END`. -/
theorem test_envNext_of_v1 :
    (after (exec .envNext (sEnv 1))).rsp = some ⟨0x0#4, Sample.ofRat (-1 / 2), 0#32⟩ ∧
    (after (exec .envNext (sEnv 7))).rsp = some ⟨0x0#4, Sample.ofRat (1 / 2), 0#32⟩ ∧
    seen 0x2100000000000000#64 (sEnv 8) = (some (0x1#4, 0#32), 0x0000000C#32) := by decide +kernel

/-- Vectors V5, V6 and V7: reference and corrected divisor at k = 2, and overlap at k = 2. -/
theorem test_envNext_divisor_and_overlap :
    gain ⟨4, 1, 3, 1, 0⟩ 2 = Sample.ofRat 0 ∧ gain ⟨4, 1, 3, 3, 0⟩ 2 = Sample.ofRat (3 / 4) ∧
    gain ⟨3, 2, 2, 2, 0⟩ 2 = Sample.ofRat (1 / 2) := by decide +kernel

/-- Vectors X1 to X4: the affine map of a draw. -/
theorem test_nseNext_map :
    noiseOf 0 = -1 ∧ noiseOf (1 / 2) = 0 ∧ noiseOf (3 / 4) = 1 / 2 ∧
    noiseOf (1 - 1 / 2 ^ 53) = 1 - 1 / 2 ^ 52 := by decide +kernel

/-- Vector X11: a refused `NSE.NEXT` draws nothing. -/
theorem test_nseNext_refused_draws_nothing :
    (after (exec .nseNext sFault)).rng = 0 ∧ seen 0x3000000000000000#64 sFault = (some (0xF#4, 0#32), 0x00000901#32) := by
  decide +kernel

/-- Rule R144 outside fault state (the value is an open parameter's), and K13's kind of refusal. -/
theorem test_rngDraw_status :
    (seen 0x3100000000000000#64 s0).1 = some (0x0#4, 0#32) ∧ (seen 0x3100000000000000#64 sFault).1 = some (0xF#4, 0#32) := by
  decide +kernel

/-- Vectors X6 and K13. -/
theorem test_rngSeed_sets_or_is_refused :
    (after (present 0x3200000000003039#64 (.finite 1) s0)).rng = Config.rngSeed 12345#32 ∧
    (after (present 0x3200000000000001#64 (.finite 1) sFault)).rng = 0 := ⟨rfl, rfl⟩

/-- Vectors Q8, Q9, Q14, Q25, wrapped, and Q9, Q14 saturated. -/
theorem test_qnt_values :
    quantized false 16 (-1 / 100000) = 0 ∧ quantized false 16 (3 / 2) = -16384 ∧
    quantized false 16 (-100004 / 100000) = 32767 ∧ quantized false 24 1 = -8388608 ∧
    quantized true 16 (3 / 2) = 32767 ∧ quantized true 16 (-100004 / 100000) = -32768 := by decide +kernel

/-- Vectors E17, E18, E19, and `QNT 16, NaN` (section 2.5). -/
theorem test_qnt_edges :
    seen 0x4000000000000000#64 s0 = (some (0xA#4, 0#32), 0x00000A01#32) ∧
    seen 0x4021000000000000#64 s0 = (some (0xA#4, 0#32), 0x00000A01#32) ∧
    seen 0x4020000000000000#64 s0 = (some (0x0#4, 0x80000000#32), 0#32) ∧
    (after (present 0x4010000000000000#64 .nan s0)).fcause = 0xA#4 := by decide +kernel

/-- Vectors K1 and K2. -/
theorem test_wrc_roll_lengths :
    (after (present 0x5001000000000028#64 (.finite 1) s0)).ron = 40#32 ∧
    (after (present 0x5002000000000000#64 (.finite 1) s0)).roff = 0#32 := by decide +kernel

/-- Vectors K3, K4 and E12. -/
theorem test_wrc_ctrl_and_read_only :
    (after (present 0x5000000000000003#64 (.finite 1) s0)).ctrl = 3#32 ∧
    (after (present 0x5000000000000004#64 (.finite 1) { s0 with ctrl := 3#32 })).ctrl = 3#32 ∧
    seen 0x5000000000000004#64 s0 = (some (0xA#4, 0#32), 0x00000A01#32) ∧
    seen 0x5003000000000000#64 s0 = (some (0x8#4, 0#32), 0x00000801#32) := by decide +kernel

/-- Program P4, commands 3 to 5, and vector K10: reading changes nothing. -/
theorem test_rdc_in_fault_state :
    seen 0x5103000000000000#64 sFault = (some (0x0#4, 0x00000901#32), 0x00000901#32) ∧
    seen 0x5105000000000000#64 sFault = (some (0x0#4, 0x10450000#32), 0x00000901#32) ∧
    seen 0x5104000000000000#64 sFault = (some (0x0#4, 0x00001F40#32), 0x00000901#32) := by decide +kernel

/-- Vectors K11 and E11: a bad index, in and out of fault state. -/
theorem test_rdc_bad_index :
    seen 0x5106000000000000#64 sFault = (some (0xF#4, 0#32), 0x00000901#32) ∧
    seen 0x5106000000000000#64 s0 = (some (0x8#4, 0#32), 0x00000801#32) := by decide +kernel

/-- Vector K14, from `STATUS` with both instances. -/
theorem test_clr_in_fault_state :
    statusWord sBoth = 0x00000907#32 ∧ seen 0x5200000000000000#64 sBoth = (some (0x0#4, 0#32), 0#32) ∧
    (after (present 0x5200000000000000#64 (.finite 1) sBoth)).fcmdh = 0#32 := by decide +kernel

/-- Vector Z1: `RST` leaves fault state and answers nothing. -/
theorem test_reset_event :
    (after (step { sBoth with inbox := [.assertReset] })).fault = false ∧
    (after (step { sBoth with inbox := [.assertReset] })).osc = none ∧
    (after (step { sBoth with inbox := [.assertReset] })).rsp = none ∧
    (after (step { sBoth with inbox := [.assertReset] })).ron = Config.rollDefault := ⟨rfl, rfl, rfl, rfl⟩

/-- Program P6's host arithmetic: N = floor(0.002 × 0.53125 × 8000) = 8; the draw 0.3125 is the digit `5`; a
non-positive duration gives 0. -/
theorem test_host_arithmetic :
    RefHost.segmentCount (17 / 16000) 8000 = 8 ∧ RefHost.segmentCount (-1) 8000 = 0 ∧
    RefHost.digitOf (5 / 16) = some 0x35#8 ∧ RefHost.durationOf 0 (1 / 1000) (5 / 16) = some (5 / 16000) ∧
    (RefHost.choiceCommands 1).length = 4 := by decide +kernel

/-! ## Witnesses: the hypotheses of each statement are met -/

theorem test_witness_DecodeOfEncodeIsTheCommand :
    (Instr.oscStart 0xFF#8 4294967295).wellFormed = true ∧ (Instr.wrc 255 0xFFFFFFFF#32).wellFormed = true := by decide

theorem test_witness_EncodeOfDecodeIsTheWord :
    decode 0x50FF0000FFFFFFFF#64 = .ok (.wrc 255 0xFFFFFFFF#32) ∧
    decode 0x20010000FFFFFFFF#64 = .ok (.envStart true 4294967295) := by decide

theorem test_witness_WordIsACommandIffItMatchesARow :
    (⟨"ENV.START", 0x2000000000000000#64, 0xFFFEFFFF00000000#64⟩ ∈ opcodeRows ∧
      0x20010000FFFFFFFF#64 &&& 0xFFFEFFFF00000000#64 = 0x2000000000000000#64) ∧
    (∀ r ∈ opcodeRows, 0x2002000000000008#64 &&& r.mask ≠ r.matchBits) ∧
    decode 0x10FF0000FFFFFFFF#64 = .ok (.oscStart 0xFF#8 4294967295) ∧ decode 0x40FF000000000000#64 = .ok (.qnt 255) ∧
    decode 0x51FF000000000000#64 = .ok (.rdc 255) ∧ decode 0x32000000FFFFFFFF#64 = .ok (.rngSeed 0xFFFFFFFF#32) ∧
    decode 0x2100000000000000#64 = .ok .envNext ∧ decode 0x1100000000000000#64 = .ok .oscNext ∧
    decode 0x3000000000000000#64 = .ok .nseNext ∧ decode 0x3100000000000000#64 = .ok .rngDraw ∧
    decode 0x5200000000000000#64 = .ok .clr := by decide

theorem test_witness_SerialisedCommandsDecodeInOrder :
    (Instr.qnt 255).wellFormed = true ∧ ([0#8, 0#8, 0#8, 0#8, 0#8, 0#8, 0x52#8] : List Byte).length < 8 ∧
    resultOfBytes [0xFF#8, 0xFF#8, 0xFF#8, 0xFF#8] = some 0xFFFFFFFF#32 := by decide

/-- For `StepRunsTheDecodedCommand` and `EveryCommandResponds`. -/
theorem test_witness_a_presented_command :
    (s0.withFetchWord 64 0x5101000000000000).inbox = .command 0x5101000000000000#64 (.finite 0) :: [] ∧
    decode 0x5101000000000000#64 = .ok (.rdc 1) := by decide +kernel

theorem test_witness_StepWithNothingPresentedHoldsTheState : s0.inbox = [] ∧ State.reset.inbox = [] := ⟨rfl, rfl⟩

theorem test_witness_ResetAndClrLeaveTheResetTable :
    ({ sBoth with inbox := [.assertReset] } : State).inbox = .assertReset :: [] := rfl

theorem test_witness_IllegalWordRaisesEIllegalAndNothingElse :
    s0.fault = false ∧ (∀ r ∈ opcodeRows, 0x1200000000000000#64 &&& r.mask ≠ r.matchBits) ∧
    (∀ r ∈ opcodeRows, 0x4010000000000001#64 &&& r.mask ≠ r.matchBits) := by decide

/-- The five fault codes are all reached (vectors E1, E14, E13, E21, O13). -/
theorem test_witness_AFaultWritesItsRecordAndNothingElse :
    (seen 0x0000000000000000#64 s0).1 = some (0x8#4, 0#32) ∧ (seen 0x1061000000001F40#64 s0).1 = some (0x9#4, 0#32) ∧
    (seen 0x5000000000000004#64 s0).1 = some (0xA#4, 0#32) ∧ (seen 0x1100000000000000#64 s0).1 = some (0xB#4, 0#32) ∧
    (seen 0x1100000000000000#64 (sOsc 4294967296)).1 = some (0xC#4, 0#32) ∧
    (sFault.fault = true ∧ (after (present 0x3000000000000000#64 .nan sFault)).fault = true) := by decide +kernel

theorem test_witness_FaultStateRefusesAllButRdcAndClr :
    sFault.fault = true ∧
    (0x5106000000000000#64 ≠ encode .clr ∧ ∀ reg, reg ≤ 5 → 0x5106000000000000#64 ≠ encode (.rdc reg)) ∧
    (0x0000000000000000#64 ≠ encode .clr ∧ ∀ reg, reg ≤ 5 → 0x0000000000000000#64 ≠ encode (.rdc reg)) ∧
    (after (step { sFault with inbox := [.command (encode .clr) .nan] })).fault = false := by decide +kernel

theorem test_witness_FaultState_left_by_reset :
    ∃ t, step { sFault with inbox := [.assertReset] } = .next t ∧ t.fault = false := ⟨_, rfl, rfl⟩

theorem test_witness_NothingHappensAfterAFaultUntilClr :
    sFault.fault = true ∧
    (∀ c ∈ ([(.rdc 5, .nan), (.rdc 6, .nan), (.oscNext, .finite 0), (.rngSeed 1#32, .posInf)] : List Presented),
      c.1 ≠ .clr) ∧
    (∀ reg, reg ≤ 5 → Instr.rdc 6 ≠ .rdc reg) := by decide +kernel

theorem test_witness_RdcAndClrAreTheTwoThatRunInFaultState :
    sFault.fault = true ∧ (5 : Nat) ≤ 5 ∧ (5 : Nat) < 6 ∧ (∀ reg, Instr.oscNext ≠ .rdc reg) ∧ Instr.oscNext ≠ .clr ∧
    (∀ r ∈ opcodeRows, 0x5200000000000001#64 &&& r.mask ≠ r.matchBits) :=
  ⟨rfl, by decide, by decide, by simp, by simp, by decide⟩

/-- First and last symbol, smallest and largest rate; codes beside the alphabet's ranges; rate 0. -/
theorem test_witness_OscStartCreatesAnInstanceOrFaults :
    RefHost.alphabet[(0 : Fin 16).val]? = some 0x30#8 ∧ RefHost.alphabet[(15 : Fin 16).val]? = some 0x23#8 ∧
    0 < 1 ∧ 0 < 4294967295 ∧ s0.fault = false ∧
    0x2F#8 ∉ RefHost.alphabet ∧ 0x3A#8 ∉ RefHost.alphabet ∧ 0x40#8 ∉ RefHost.alphabet ∧ 0x45#8 ∉ RefHost.alphabet ∧
    0x61#8 ∉ RefHost.alphabet ∧ 0x2A#8 ∈ RefHost.alphabet := by decide

theorem test_witness_OscNextAnswersTheSampleAndAdvances :
    ((sOsc 0).fault = false ∧ (sOsc 0).osc = some (oscAt 0) ∧ (oscAt 0).n < 2 ^ 32) ∧
    ((sOsc 4294967295).osc = some (oscAt 4294967295) ∧ (oscAt 4294967295).n < 2 ^ 32) ∧
    (s0.fault = false ∧ s0.osc = none) ∧
    ((sOsc 4294967296).fault = false ∧ (oscAt 4294967296).n = 2 ^ 32) := by decide +kernel

/-- A run with other commands between, for the two sequence statements. -/
def aRun : List Presented :=
  [(.oscNext, .nan), (.envNext, .finite 0), (.nseNext, .finite 0), (.oscNext, .finite 0), (.rdc 3, .finite 0),
   (.envNext, .finite 0)]

/-- The state with both instances fresh, outside fault state. -/
def sFresh : State := { s0 with osc := some (oscAt 0), env := some { envAt 0 with total := 1 } }

theorem test_witness_TheJthOscNextAnswersTheJthSample :
    sFresh.fault = false ∧ sFresh.osc = some (oscAt 0) ∧ (oscAt 0).n = 0 ∧ (∀ c ∈ aRun, endsOscillator c.1 = false) ∧
    (afterRun aRun sFresh).fault = false := by decide +kernel

theorem test_witness_FirstSampleWithZeroPhasesIsOne :
    (sOsc 0).fault = false ∧ (sOsc 0).osc = some (oscAt 0) ∧ 1 ≤ (oscAt 0).rate ∧ (oscAt 0).n = 0 ∧
    Angle.toReal (oscAt 0).phiLo = 0 ∧ Angle.toReal (oscAt 0).phiHi = 0 := by
  refine ⟨rfl, rfl, by decide, rfl, ?_, ?_⟩ <;> simp [Angle.toReal, oscAt]

/-- `RON = 0`, `ROFF = 1`. -/
def sZero : State := { s0 with ron := 0#32, roff := 1#32 }

/-- Clause 1 at N = 1 and roff = 1; clause 2 at N = 0, and in corrected mode. -/
theorem test_witness_EnvStartLatchesTheRollLengths :
    sZero.fault = false ∧ (0 < 1 ∧ 0 < sZero.roff.toNat ∧ sZero.ron.toNat = 0) ∧ sZero.ctrl.getLsbD 0 = false ∧
    ¬(0 < 0 ∧ 0 < sZero.roff.toNat ∧ sZero.ron.toNat = 0) ∧ ({ sZero with ctrl := 1#32 } : State).ctrl.getLsbD 0 = true := by
  decide +kernel

/-- Attack at k = ron − 1, release at its first and last index. -/
theorem test_witness_EnvStartFaultsExactlyOnAZeroDivisor :
    s0.fault = false ∧ (envAt 0).Wf ∧ (1 < (envAt 0).total ∧ 1 < (envAt 0).ron) ∧
    (6 < (envAt 0).total ∧ (envAt 0).ron ≤ 6 ∧ (envAt 0).total ≤ 6 + (envAt 0).roff) ∧
    (7 < (envAt 0).total ∧ (envAt 0).ron ≤ 7 ∧ (envAt 0).total ≤ 7 + (envAt 0).roff) := by decide +kernel

theorem test_witness_TheTwoRampsHaveTheirValues : (0 : Nat) < 1 ∧ ((0 : Nat) < 1 ∧ (1 : Nat) < 2) := by decide

/-- The three spans of V1 at their ends; an overlap (V7); all attack (V9). -/
theorem test_witness_TheGainFollowsTheThreeSpans :
    ((1 : Nat) < 8 ∧ 1 < (envAt 0).ron) ∧ ((envAt 0).ron ≤ 6 ∧ (envAt 0).total ≤ 6 + (envAt 0).roff) ∧
    ((envAt 0).ron ≤ 2 ∧ 2 + (envAt 0).roff < (envAt 0).total) ∧ ((envAt 0).ron ≤ 5 ∧ 5 + (envAt 0).roff < (envAt 0).total) ∧
    (envAt 0).ron + (envAt 0).roff ≤ (envAt 0).total ∧ (5 : Nat) < (envAt 0).total - (envAt 0).roff ∧
    (1 : Nat) < (envAt 0).roff ∧ ((2 : Nat) < 3 ∧ (2 : Nat) ≤ 2 ∧ (3 : Nat) ≤ 2 + 2) ∧ ((1 : Nat) ≤ 4 ∧ (0 : Nat) < 1) := by
  decide

theorem test_witness_EnvNextAnswersTheGainAndAdvances :
    ((sEnv 0).fault = false ∧ (sEnv 0).env = some (envAt 0) ∧ (envAt 0).k < (envAt 0).total) ∧
    ((sEnv 7).env = some (envAt 7) ∧ (envAt 7).k < (envAt 7).total) ∧
    ((sEnv 8).fault = false ∧ (sEnv 8).env = some (envAt 8) ∧ (envAt 8).k = (envAt 8).total) ∧ s0.env = none := by
  decide +kernel

theorem test_witness_EndRepeatsAndChangesNothing :
    ((sEnv 8).fault = false ∧ (sEnv 8).env = some (envAt 8) ∧ (envAt 8).k = (envAt 8).total) ∧
    ((envAt 7).k ≤ (envAt 7).total ∧ (after (exec .envNext (sEnv 7))).env = some (envAt 8)) := by decide +kernel

theorem test_witness_AnEnvelopeYieldsExactlyNGains :
    sFresh.fault = false ∧ sFresh.env = some { envAt 0 with total := 1 } ∧ (envAt 0).k = 0 ∧
    (∀ c ∈ aRun, endsEnvelope c.1 = false) ∧ (afterRun aRun sFresh).fault = false := by decide +kernel

/-- Also at the largest fields. -/
theorem test_witness_EveryGainIsBetweenMinusOneAndOne :
    (envAt 0).Wf ∧ (1 < (envAt 0).total ∧ 1 < (envAt 0).ron) ∧ (7 < (envAt 0).total ∧ (envAt 0).ron ≤ 7) ∧
    (⟨4294967295, 4294967295, 4294967295, 4294967295, 4294967295⟩ : EnvInst).Wf := by decide +kernel

theorem test_witness_GainAtTheSpanEnds : (1 : Nat) ≤ 1 ∧ 2 * 1 ≤ 2 := by decide

/-- Clause 2 with unequal lengths (`RON = 2`, `ROFF = 3`) in both modes, with `RON = 0` in corrected mode, and with an
empty envelope in reference mode; the gain clause in the attack span and on the plateau. -/
theorem test_witness_CorrectedModeChangesOnlyTheDivisor :
    (({ s0 with ctrl := 1#32 } : State).fault = false ∧ ({ s0 with ctrl := 1#32 } : State).ctrl.getLsbD 0 = true) ∧
    (s0.fault = false ∧ (false = true → s0.roff = s0.ron)) ∧
    (true = true → ({ s0 with roff := 2#32 } : State).roff = ({ s0 with roff := 2#32 } : State).ron) ∧
    s0.ron ≠ 0#32 ∧ s0.ron ≠ s0.roff ∧ (sZero.ron = 0#32 ∧ (1#32 : Word32).getLsbD 0 = true) ∧ (0 : Nat) = 0 ∧
    (1 : Nat) < (envAt 0).ron ∧ 5 + (envAt 0).roff < (envAt 0).total := by decide +kernel

/-- For the statements about `NSE.NEXT`, `RNG.DRAW`, `RNG.SEED`. -/
theorem test_witness_outside_fault_state : s0.fault = false := rfl

/-- A run that draws, with a refused and a faulting `OSC.START` in it. -/
def drawRun : List Presented :=
  [(.oscStart 0x31#8 8000, .nan), (.nseNext, .nan), (.oscStart 0x45#8 8000, .nan), (.rngDraw, .nan), (.clr, .nan),
   (.rngDraw, .nan)]

theorem test_witness_DrawsAreCountedByTheCommandsThatSucceed :
    s0.fault = false ∧ (∀ c ∈ drawRun, ∀ sd, c.1 ≠ .rngSeed sd) := ⟨rfl, by simp [drawRun]⟩

theorem test_witness_TheKthDrawReceivesTheKthValue :
    (∀ c ∈ drawRun, ∀ sd, c.1 ≠ .rngSeed sd) ∧ (afterRun drawRun s0).fault = false ∧ 0x23#8 ∈ RefHost.alphabet ∧ 0 < 1 :=
  ⟨by simp [drawRun], by decide +kernel, by decide, by decide⟩

/-- Depths 1 and 32; depths 0 and 33; the three values that are not finite numbers; both modes. -/
theorem test_witness_QntAnswersTheTruncatedScaledSample :
    s0.fault = false ∧ (1 ≤ 1 ∧ 1 ≤ 32) ∧ (1 ≤ 32 ∧ 32 ≤ 32) ∧ s0.fin = .finite 0 ∧ s0.ctrl.getLsbD 1 = false ∧
    ({ s0 with ctrl := 2#32 } : State).ctrl.getLsbD 1 = true ∧ (0 < 1 ∨ 32 < 0) ∧ (33 < 1 ∨ 32 < 33) ∧
    (∀ x, ({ s0 with fin := .nan } : State).fin ≠ .finite x) ∧ (∀ x, ({ s0 with fin := .posInf } : State).fin ≠ .finite x) ∧
    (∀ x, ({ s0 with fin := .negInf } : State).fin ≠ .finite x) :=
  ⟨rfl, by decide, by decide, rfl, by decide, by decide, by decide, by decide, by simp, by simp, by simp⟩

theorem test_witness_bit_depths : ((1 : Nat) ≤ 1 ∧ (1 : Nat) ≤ 32) ∧ ((1 : Nat) ≤ 32 ∧ (32 : Nat) ≤ 32) := by decide

/-- Rule R10's example 2.7, with the integer 2. -/
theorem test_witness_TruncIsTheNearestIntegerTowardZero :
    |((2 : Int) : Rat)| ≤ |(27 / 10 : Rat)| ∧ trunc (27 / 10) = 2 ∧ trunc (-27 / 10) = -2 ∧ trunc (-3 / 10) = 0 := by
  refine ⟨by norm_num [abs_of_pos], ?_⟩
  decide +kernel

/-- Boundary samples 1 and −1, and one inside, for `SaturatingModeClampsOutsideTheRange` and
`QuantizerIntegerLaws`. -/
theorem test_witness_samples :
    (1 : Rat) ≤ 1 ∧ (-1 : Rat) ≤ -1 ∧ ((-1 : Rat) < 0 ∧ (0 : Rat) < 1) ∧ ((-1 : Rat) ≤ -1 ∧ (-1 : Rat) ≤ 1 / 2 ∧ (1 / 2 : Rat) < 1) := by
  norm_num

/-- The largest legal value of `CTRL` and the smallest with a reserved bit; the first and the last index that faults. -/
theorem test_witness_WrcWritesTheNamedRegister :
    s0.fault = false ∧ (3#32).extractLsb' 2 30 = 0#30 ∧ (4#32).extractLsb' 2 30 ≠ 0#30 ∧ (2 : Nat) < 3 ∧ (2 : Nat) < 255 := by
  decide

theorem test_witness_RdcAnswersTheNamedRegister : s0.fault = false ∧ (5 : Nat) < 6 := by decide

/-- Every flag at 1 and at 0 somewhere. -/
theorem test_witness_StatusHasTheFlagsOfTheState :
    sFault.fault = true ∧ s0.fault = false ∧ statusWord { sOsc 4294967296 with env := some (envAt 8) } = 0x0000001E#32 := by
  decide +kernel

theorem test_witness_OnlyTheNamedCommandsWriteEachPieceOfState :
    ∃ t, exec (.wrc 1 40#32) s0 = .next t ∧ t.ron ≠ s0.ron := ⟨_, rfl, by decide⟩

theorem test_witness_OscillatorInstanceIsFixedButForItsIndex :
    ∃ t, exec .oscNext (sOsc 0) = .next t ∧ endsOscillator .oscNext = false ∧ (sOsc 0).osc = some (oscAt 0) ∧
      t.osc = some (oscAt 1) := ⟨_, rfl, rfl, rfl, rfl⟩

theorem test_witness_TheFloatInputIsReadByQntAlone :
    (∀ depth, Instr.oscNext ≠ .qnt depth) ∧ ∃ t, exec .oscNext (sOsc 0) = .next t := ⟨by simp, _, rfl⟩

theorem test_witness_UnusedResponseFieldsAreZero :
    ∃ t, exec .envNext (sEnv 1) = .next t ∧ t.rsp = some ⟨0x0#4, Sample.ofRat (-1 / 2), 0#32⟩ := ⟨_, rfl, by decide +kernel⟩

/-- A state with both instances and a presented command meets the invariant, and steps. -/
theorem test_witness_EveryStepKeepsTheInvariant :
    ({ sFresh with inbox := [.command (encode .oscNext) .nan] } : State).Inv ∧
    ∃ t, step { sFresh with inbox := [.command (encode .oscNext) .nan] } = .next t := by
  refine ⟨⟨?_, ?_, by decide, by decide, by decide +kernel, by simp [sFresh, s0]⟩, _, rfl⟩
  · intro o h
    obtain rfl : oscAt 0 = o := Option.some.inj h
    decide +kernel
  · intro e h
    obtain rfl : ({ envAt 0 with total := 1 } : EnvInst) = e := Option.some.inj h
    decide +kernel

theorem test_witness_InitialisationDeterminesEverythingAfterIt :
    s0.tones = sBoth.tones ∧ (3#32 : Word32) >>> 2 = 0#32 := ⟨rfl, by decide⟩

theorem test_witness_ADigitSegmentRunsToItsEnd :
    0x35#8 ∈ RefHost.alphabet ∧ 0 < 8000 ∧ (4294967295 : Nat) < 2 ^ 32 ∧ s0.fault = false := by decide

theorem test_witness_HostWeightsAndSegmentsKeepTheirInvariants : (0 : Rat) ≤ 0 ∧ (0 : Rat) ≤ 3 := by norm_num

end Sys2Proof.Tests
end

section
/-! Proofs. The step on a presented command, rounding toward zero, and the Quantizer. -/

namespace Sys2Proof.Machine

/-! ## The step -/

/-- A step with a command first among the host's events presents that command (rule R56). -/
theorem step_of_command {s : State} {w : CmdWord} {f : FloatIn} {rest : List HostEvent}
    (h : s.inbox = .command w f :: rest) : step s = present w f (takeEvent rest s) := by
  simp [step, h]

/-- A presented word that decodes is executed on the state with the port latched (rule R74). -/
theorem present_of_decode {w : CmdWord} {i : Instr} (h : decode w = .ok i) (f : FloatIn) (s : State) :
    present w f s = exec i (latch w f s) := by
  simp [present, h]

/-- Settles O6: the presented word is latched with its float and its decoding executed. -/
theorem stepRunsTheDecodedCommand : Obligations.StepRunsTheDecodedCommand := by
  intro s w f rest i hInbox hDecode
  rw [step_of_command hInbox, present_of_decode hDecode]
  rfl

/-! ## Rounding toward zero -/

/-- On non-negative rationals `trunc` is the floor. -/
theorem trunc_of_nonneg {x : Rat} (h : 0 ≤ x) : trunc x = ⌊x⌋ := by rw [trunc_eq, if_pos h]

/-- On non-negative reals `truncReal` is the floor. -/
theorem truncReal_of_nonneg {x : ℝ} (h : 0 ≤ x) : truncReal x = ⌊x⌋ := if_pos h

theorem truncReal_neg (x : ℝ) : truncReal (-x) = -truncReal x := by
  rcases lt_trichotomy x 0 with h | rfl | h
  · rw [truncReal_of_nonneg (by linarith), truncReal, if_neg (by linarith), Int.floor_neg]
  · simp [truncReal]
  · rw [truncReal_of_nonneg h.le, truncReal, if_neg (by linarith), Int.ceil_neg]

/-- Rounding toward zero, then dividing by a natural number and rounding again, is dividing and rounding once. -/
theorem truncReal_truncReal_div (x : ℝ) (n : ℕ) : truncReal ((truncReal x : ℝ) / n) = truncReal (x / n) := by
  have nonneg : ∀ y : ℝ, 0 ≤ y → truncReal ((truncReal y : ℝ) / n) = truncReal (y / n) := by
    intro y hy
    have hFloor : (0 : ℝ) ≤ (⌊y⌋ : ℝ) := by exact_mod_cast Int.floor_nonneg.mpr hy
    rw [truncReal_of_nonneg hy, truncReal_of_nonneg (by positivity), truncReal_of_nonneg (by positivity),
      Int.floor_div_natCast, Int.floor_div_natCast, Int.floor_intCast]
  rcases le_total 0 x with h | h
  · exact nonneg x h
  · have := nonneg (-x) (by linarith)
    rwa [truncReal_neg, Int.cast_neg, neg_div, neg_div, truncReal_neg, truncReal_neg, neg_inj] at this

/-- `trunc` is nearest among the integers no larger in absolute value, on the non-negative side (rule R10). -/
theorem trunc_nearest_of_nonneg {x : Rat} (h : 0 ≤ x) :
    |(trunc x : Rat)| ≤ |x| ∧ ∀ m : Int, |(m : Rat)| ≤ |x| → |x - (trunc x : Rat)| ≤ |x - (m : Rat)| := by
  have hFloor : (0 : Rat) ≤ (⌊x⌋ : Rat) := by exact_mod_cast Int.floor_nonneg.mpr h
  have hLe : (⌊x⌋ : Rat) ≤ x := Int.floor_le x
  rw [trunc_of_nonneg h, abs_of_nonneg h, abs_of_nonneg hFloor]
  refine ⟨hLe, fun m hm => ?_⟩
  have hmx : (m : Rat) ≤ x := (le_abs_self _).trans hm
  have hmFloor : (m : Rat) ≤ (⌊x⌋ : Rat) := by exact_mod_cast Int.le_floor.mpr hmx
  rw [abs_of_nonneg (by linarith), abs_of_nonneg (by linarith)]
  linarith

/-- Settles O37: the non-negative side is the floor, and the negative side its mirror image. -/
theorem truncIsTheNearestIntegerTowardZero : Obligations.TruncIsTheNearestIntegerTowardZero := by
  intro x
  rcases le_total 0 x with h | h
  · exact trunc_nearest_of_nonneg h
  · obtain ⟨hAbs, hNearest⟩ := trunc_nearest_of_nonneg (x := -x) (by linarith)
    rw [trunc_neg, Int.cast_neg, abs_neg, abs_neg] at hAbs
    refine ⟨hAbs, fun m hm => ?_⟩
    have hMirror := hNearest (-m) (by rwa [Int.cast_neg, abs_neg, abs_neg])
    rw [trunc_neg, Int.cast_neg, Int.cast_neg, ← neg_sub', ← neg_sub', abs_neg, abs_neg] at hMirror
    exact hMirror

/-- Settles O36: `x` rounded toward zero to a multiple of `2^(-31)` rounds as `x` does at every smaller depth. -/
theorem everyRealSampleHasARationalRepresentative : Obligations.EveryRealSampleHasARationalRepresentative := by
  intro x
  refine ⟨(truncReal (x * 2 ^ 31) : Rat) / 2 ^ 31, fun depth _ hDepth => ?_⟩
  have hPow : (2 : ℝ) ^ 31 = 2 ^ (depth - 1) * 2 ^ (32 - depth) := by rw [← pow_add]; congr 1; omega
  have coarser : ∀ a : ℝ, a / 2 ^ 31 * 2 ^ (depth - 1) = a / (2 ^ (32 - depth) : ℕ) := by
    intro a
    rw [hPow]; push_cast; field_simp
  calc truncReal (x * 2 ^ (depth - 1))
      = truncReal (x * 2 ^ 31 / (2 ^ (32 - depth) : ℕ)) := by
        rw [← coarser, mul_div_cancel_right₀ x (by positivity)]
    _ = truncReal ((truncReal (x * 2 ^ 31) : ℝ) / (2 ^ (32 - depth) : ℕ)) := (truncReal_truncReal_div _ _).symm
    _ = truncReal (((truncReal (x * 2 ^ 31) : Rat) / 2 ^ 31 * 2 ^ (depth - 1) : Rat) : ℝ) := by
        rw [← coarser]; push_cast; rfl
    _ = trunc ((truncReal (x * 2 ^ 31) : Rat) / 2 ^ 31 * 2 ^ (depth - 1)) := truncReal_ratCast _

/-! ## The Quantizer -/

/-- `QNT` outside fault state at a legal bit depth, with a finite float beside it (rule R161). -/
theorem exec_qnt_of_finite {depth : Nat} {x : Rat} {s : State} (hReady : s.fault = false) (h1 : 1 ≤ depth)
    (h32 : depth ≤ 32) (hFin : s.fin = .finite x) :
    exec (.qnt depth) s = .next (respondInt (sext32 (quantized (satMode s) depth x)) s) := by
  have hDepth : ¬(depth < 1 ∨ Config.bMax < depth) := by simp [Config.bMax]; omega
  simp only [exec, execQnt, unlessFaulted_of_ready hReady, if_neg hDepth, hFin]

/-- `QNT` faults at a bit depth outside 1 … 32 (rule R165). -/
theorem exec_qnt_of_badDepth {depth : Nat} {s : State} (hReady : s.fault = false) (h : depth < 1 ∨ 32 < depth) :
    exec (.qnt depth) s = .next (raise .badParam s) := by
  have hDepth : depth < 1 ∨ Config.bMax < depth := h
  simp only [exec, execQnt, unlessFaulted_of_ready hReady, if_pos hDepth]

/-- `QNT` faults on a float that is no finite number, whatever the bit depth (rule R165). -/
theorem exec_qnt_of_notFinite {s : State} (hReady : s.fault = false) (hFin : ∀ x, s.fin ≠ .finite x)
    (depth : Nat) : exec (.qnt depth) s = .next (raise .badParam s) := by
  simp only [exec, execQnt, unlessFaulted_of_ready hReady]
  cases hf : s.fin with
  | finite x => exact absurd hf (hFin x)
  | posInf | negInf | nan => simp only [ite_self]

/-- Raising a fault is fault entry in the words of the claims (rule R226). -/
theorem raise_eq_faultEntered (c : Cause) (s : State) : raise c s = faultEntered (Cause.code c) s := rfl

/-- The model's scaled sample is the one of rule R161 over the reals. -/
theorem truncReal_scaled (depth : Nat) (x : Rat) :
    truncReal ((x : ℝ) * 2 ^ (depth - 1)) = scaled depth x := by
  rw [scaled, ← truncReal_ratCast]; push_cast; rfl

/-- Wrapping keeps the residue modulo `2^B` (rule R162). -/
theorem pow_dvd_sub_wrapB (bits : Nat) (q : Int) : (2 : Int) ^ bits ∣ q - wrapB bits q := by
  have h : q - wrapB bits q = q + 2 ^ (bits - 1) - (q + 2 ^ (bits - 1)) % 2 ^ bits := by rw [wrapB]; ring
  exact h ▸ Int.dvd_self_sub_emod

/-- A quantized sample lies in the `B`-bit signed range in either mode (rule R161). -/
theorem quantized_range (sat : Bool) {depth : Nat} (h : 1 ≤ depth) (x : Rat) :
    -(2 ^ (depth - 1)) ≤ quantized sat depth x ∧ quantized sat depth x ≤ 2 ^ (depth - 1) - 1 := by
  cases sat with
  | false => exact wrapB_range h _
  | true => exact satB_range depth _

/-- Sign extension keeps the integers of a bit depth up to 32 (rule R10). -/
theorem toInt_sext32 {depth : Nat} (h : depth ≤ 32) {v : Int} (hLo : -(2 ^ (depth - 1)) ≤ v)
    (hHi : v ≤ 2 ^ (depth - 1) - 1) : (sext32 v).toInt = v := by
  have hPow : (2 : Int) ^ (depth - 1) ≤ 2 ^ 31 := pow_le_pow_right₀ (by norm_num) (by omega)
  rw [sext32, BitVec.toInt_ofInt]
  exact Int.bmod_eq_of_le (by omega) (by omega)

/-- Settles O35: the answer is the quantized sample, and both ways of being a bad parameter fault. -/
theorem qntAnswersTheTruncatedScaledSample : Obligations.QntAnswersTheTruncatedScaledSample := by
  refine ⟨fun depth x s hReady h1 h32 hFin => ?_, fun depth s hReady hDepth => ?_, fun depth s hReady hFin => ?_⟩
  · obtain ⟨hLo, hHi⟩ := quantized_range (satMode s) h1 x
    rw [truncReal_scaled]
    refine ⟨_, _, exec_qnt_of_finite hReady h1 h32 hFin, toInt_sext32 h32 hLo hHi, hLo, hHi, fun hWrap => ?_,
      fun hSat => ?_⟩
    · rw [show satMode s = false from hWrap]
      exact pow_dvd_sub_wrapB depth _
    · rw [show satMode s = true from hSat]
      rfl
  · rw [exec_qnt_of_badDepth hReady hDepth, raise_eq_faultEntered, Cause.code]
  · rw [exec_qnt_of_notFinite hReady hFin, raise_eq_faultEntered, Cause.code]

end Sys2Proof.Machine
end

section
/-! Proofs. Every state: the inversion of `exec`, the configuration and status registers, who writes what, and the
invariant of the block's state. -/

namespace Sys2Proof.Machine

/-! ## What a command can leave -/

/-- The inversion of `exec`: the state a command leaves is a refusal's, a fault's, or the command's own. -/
theorem exec_inv {i : Instr} {s t : State} (h : exec i s = .next t) :
    (s.fault = true ∧ t = refuse s) ∨ (s.fault = false ∧ ∃ c, t = raise c s) ∨ Completed i s t := by
  rcases exec_cases i s with ⟨hf, he⟩ | ⟨hf, c, he⟩ | ⟨u, he, hc⟩ <;>
    obtain rfl := Host.Outcome.next.inj (h.symm.trans he)
  · exact .inl ⟨hf, rfl⟩
  · exact .inr (.inl ⟨hf, c, rfl⟩)
  · exact .inr (.inr hc)

theorem isFaultCode_code (c : Cause) : isFaultCode (Cause.code c) := by cases c <;> decide

theorem isStatusCode_code (c : Cause) : isStatusCode (Cause.code c) := .inr (.inr (.inl (isFaultCode_code c)))

/-- The operands of a decoded command fit the fields they come from (rules R71, R75). -/
theorem wellFormed_of_decode {w : CmdWord} {i : Instr} (h : decode w = .ok i) : i.wellFormed = true := by
  have hImm : (fieldImm w).toNat < 4294967296 := (fieldImm w).isLt
  have hA : (fieldA w).toNat < 256 := (fieldA w).isLt
  rcases decode_cases h with h | h | h | h | h | h | h | h | h | h | h <;>
    obtain ⟨-, -, -, rfl⟩ := checked_eq_ok.mp h.2 <;>
    simp [Instr.wellFormed, hImm, hA]

/-! ## The configuration and status registers -/

/-- The reserved bits 31:2 of `CTRL`, as the claims and as the model spell them (rule R31). -/
theorem extractLsb'_reserved_eq_zero_iff (v : Word32) : v.extractLsb' 2 30 = 0#30 ↔ v >>> 2 = 0#32 := by
  simp only [← BitVec.toNat_inj, BitVec.extractLsb'_toNat, BitVec.toNat_ushiftRight, BitVec.toNat_ofNat]
  rw [Nat.mod_eq_of_lt]
  have := v.isLt
  rw [Nat.shiftRight_eq_div_pow]
  omega

/-- `WRC` of an assigned index outside fault state is the register's write (rule R176). -/
theorem exec_wrc_of_assigned {reg : Nat} {r : CfgReg} {v : Word32} {s : State} (hReady : s.fault = false)
    (hReg : cfgReg reg = some r) : exec (.wrc reg v) s = .next (writeCfg r v s) := by
  simp only [exec, execWrc, unlessFaulted_of_ready hReady, hReg]

/-- `WRC` of an index no register has faults (rule R176). -/
theorem exec_wrc_of_unassigned {reg : Nat} {v : Word32} {s : State} (hReady : s.fault = false)
    (hReg : cfgReg reg = none) : exec (.wrc reg v) s = .next (raise .illegal s) := by
  simp only [exec, execWrc, unlessFaulted_of_ready hReady, hReg]

/-- `RDC` of an assigned index answers the register, in or out of fault state (rules R177, R178). -/
theorem exec_rdc_of_assigned {reg : Nat} {r : CfgReg} (hReg : cfgReg reg = some r) (s : State) :
    exec (.rdc reg) s = .next (respondInt (readCfg r s) s) := by
  simp only [exec, execRdc, hReg]

/-- `RDC` of an index no register has faults outside fault state (rule R177). -/
theorem exec_rdc_of_unassigned {reg : Nat} {s : State} (hReady : s.fault = false) (hReg : cfgReg reg = none) :
    exec (.rdc reg) s = .next (raise .illegal s) := by
  simp only [exec, execRdc, hReg, unlessFaulted_of_ready hReady]

/-- The registers that are not 0, 1 or 2 are not written: each faults `E_ILLEGAL` (rule R176). -/
theorem exec_wrc_of_not_writable {reg : Nat} (v : Word32) {s : State} (hReady : s.fault = false) (h : 2 < reg) :
    exec (.wrc reg v) s = .next (raise .illegal s) := by
  cases hReg : cfgReg reg with
  | none => exact exec_wrc_of_unassigned hReady hReg
  | some r =>
    obtain ⟨hCtrl, hRon, hRoff⟩ := cfgReg_index hReg
    rw [exec_wrc_of_assigned hReady hReg]
    cases r with
    | ctrl => exact absurd (hCtrl rfl) (by omega)
    | ron => exact absurd (hRon rfl) (by omega)
    | roff => exact absurd (hRoff rfl) (by omega)
    | status | fcmdl | fcmdh => rfl

/-- Settles O42: each writable register by its index, then the indices that name none. -/
theorem wrcWritesTheNamedRegister : Obligations.WrcWritesTheNamedRegister := by
  refine ⟨fun v s hReady hv => ?_, fun v s hReady hv => ?_, fun v s hReady => ?_, fun v s hReady => ?_,
    fun reg v s hReady hReg => ?_⟩
  · rw [extractLsb'_reserved_eq_zero_iff] at hv
    rw [exec_wrc_of_assigned hReady (r := .ctrl) rfl, writeCfg, if_neg (not_not.mpr hv)]
    rfl
  · rw [Ne, extractLsb'_reserved_eq_zero_iff] at hv
    rw [exec_wrc_of_assigned hReady (r := .ctrl) rfl, writeCfg, if_pos hv]
    rfl
  · exact exec_wrc_of_assigned hReady (r := .ron) rfl
  · exact exec_wrc_of_assigned hReady (r := .roff) rfl
  · exact exec_wrc_of_not_writable v hReady hReg

/-- `CTRL` reads with its two mode flags as stored and its reserved bits as 0 (rule R31). -/
theorem ctrlWord_bits (s : State) :
    (ctrlWord s).getLsbD 0 = s.ctrl.getLsbD 0 ∧ (ctrlWord s).getLsbD 1 = s.ctrl.getLsbD 1 ∧
      (ctrlWord s).extractLsb' 2 30 = 0#30 := by
  refine ⟨by simp [ctrlWord], by simp [ctrlWord], ?_⟩
  rw [extractLsb'_reserved_eq_zero_iff, ctrlWord, BitVec.ushiftRight_and_distrib]
  exact BitVec.and_zero

/-- Settles O43: the six registers by their index, then the indices that name none. -/
theorem rdcAnswersTheNamedRegister : Obligations.RdcAnswersTheNamedRegister :=
  ⟨fun s => ⟨ctrlWord s, exec_rdc_of_assigned (r := .ctrl) rfl s, ctrlWord_bits s⟩,
    exec_rdc_of_assigned (r := .ron) rfl,
    exec_rdc_of_assigned (r := .roff) rfl,
    exec_rdc_of_assigned (r := .status) rfl,
    exec_rdc_of_assigned (r := .fcmdl) rfl,
    exec_rdc_of_assigned (r := .fcmdh) rfl,
    fun _ _ hReady hReg => exec_rdc_of_unassigned hReady (cfgReg_of_gt hReg)⟩

/-- The bits of `STATUS` that are flags (rule R34). -/
theorem statusWord_flags (s : State) :
    (statusWord s).getLsbD 0 = s.fault ∧ (statusWord s).getLsbD 1 = oscV s ∧ (statusWord s).getLsbD 2 = envV s ∧
      (statusWord s).getLsbD 3 = envEnd s ∧ (statusWord s).getLsbD 4 = oscOvf s := by
  simp only [statusWord, BitVec.getLsbD_append]
  simp

/-- The fields of `STATUS` above its flags: reserved, `FCAUSE`, reserved (rule R34). -/
theorem statusWord_fields (s : State) :
    (statusWord s).extractLsb' 5 3 = 0#3 ∧ (statusWord s).extractLsb' 8 4 = causeField s ∧
      (statusWord s).extractLsb' 12 20 = 0#20 := by
  refine ⟨?_, ?_, ?_⟩ <;> ext j hj <;>
    simp only [statusWord, BitVec.getElem_extractLsb', BitVec.getLsbD_append]
  · simp (disch := omega) only [if_pos, if_neg]
    simp
  · simp (disch := omega) only [if_pos, if_neg]
    rw [← BitVec.getLsbD_eq_getElem hj]
    congr 1
    omega
  · simp (disch := omega) only [if_neg]
    simp

theorem envEnd_iff (s : State) : envEnd s = true ↔ ∃ e, s.env = some e ∧ e.k = e.total := by
  cases h : s.env <;> simp [envEnd, h]

theorem oscOvf_iff (s : State) : oscOvf s = true ↔ ∃ o, s.osc = some o ∧ o.n = 2 ^ 32 := by
  cases h : s.osc with
  | none => simp [oscOvf, h]
  | some o =>
    simp only [oscOvf, h, decide_eq_true_iff, Option.some.injEq, exists_eq_left']
    exact Iff.rfl

/-- Settles O44: each bit by its place in the word, then what the flag it shows means. -/
theorem statusHasTheFlagsOfTheState : Obligations.StatusHasTheFlagsOfTheState := by
  intro s
  obtain ⟨hFault, hOscV, hEnvV, hEnvEnd, hOscOvf⟩ := statusWord_flags s
  obtain ⟨hLow, hCause, hHigh⟩ := statusWord_fields s
  rw [hFault, hOscV, hEnvV, hEnvEnd, hOscOvf, hCause]
  exact ⟨Iff.rfl, Option.isSome_iff_exists, Option.isSome_iff_exists, envEnd_iff s, oscOvf_iff s, hLow,
    fun h => if_pos h, fun h => if_neg (by simp [h]), hHigh⟩

/-! ## Who writes what -/

/-- Settles O46: a refusal writes the response alone, a fault its record, and each command's own effect is read off. -/
theorem onlyTheNamedCommandsWriteEachPieceOfState : Obligations.OnlyTheNamedCommandsWriteEachPieceOfState := by
  intro i s t h
  rcases exec_inv h with ⟨-, rfl⟩ | ⟨hReady, c, rfl⟩ | hDone
  · simp
  · simp [hReady]
  · cases i with
    | oscStart sym rate =>
      obtain ⟨-, p, -, -, rfl⟩ := hDone
      simp [oscBegin]
    | oscNext =>
      obtain ⟨-, o, -, -, rfl⟩ := hDone
      simp
    | envStart uo n =>
      obtain ⟨-, -, rfl⟩ := hDone
      simp
    | envNext => obtain ⟨-, e, -, ⟨-, rfl⟩ | ⟨-, rfl⟩⟩ := hDone <;> simp
    | nseNext | rngDraw | rngSeed seed =>
      obtain ⟨-, rfl⟩ := hDone
      simp
    | qnt depth =>
      obtain ⟨-, x, -, -, -, rfl⟩ := hDone
      simp
    | wrc reg v =>
      obtain ⟨-, ⟨hReg, -, rfl⟩ | ⟨hReg, rfl⟩ | ⟨hReg, rfl⟩⟩ := hDone <;>
        obtain ⟨hCtrl, hRon, hRoff⟩ := cfgReg_index hReg
      · simp [hCtrl rfl]
      · simp [hRon rfl]
      · simp [hRoff rfl]
    | rdc reg =>
      obtain ⟨r, -, rfl⟩ := hDone
      simp
    | clr =>
      obtain rfl := hDone
      simp

/-- Settles O47: of the commands that write the oscillator only `OSC.NEXT` keeps its life going. -/
theorem oscillatorInstanceIsFixedButForItsIndex : Obligations.OscillatorInstanceIsFixedButForItsIndex := by
  intro i s t o o' h hKeeps ho ho'
  have same (hSame : t.osc = s.osc) :
      o' = { o with n := o'.n } ∧ (o'.n = o.n ∨ o'.n = o.n + 1 ∧ i = .oscNext ∧ isOk t.rsp = true) := by
    obtain rfl : o' = o := Option.some.inj (by rw [← ho, ← ho', hSame])
    exact ⟨rfl, .inl rfl⟩
  obtain ⟨hOsc, -⟩ := onlyTheNamedCommandsWriteEachPieceOfState i s t h
  rcases hOsc with hSame | ⟨sym, rate, rfl⟩ | rfl | rfl
  · exact same hSame
  · cases hKeeps
  · rcases exec_inv h with ⟨-, rfl⟩ | ⟨-, c, rfl⟩ | ⟨-, p, hp, -, rfl⟩
    · exact same rfl
    · exact same rfl
    · obtain rfl : p = o := Option.some.inj (hp.symm.trans ho)
      obtain rfl := Option.some.inj ho'
      exact ⟨rfl, .inr ⟨rfl, rfl, rfl⟩⟩
  · cases hKeeps

/-- The state with another float on the port. -/
def State.withFin (x : FloatIn) (s : State) : State := { s with fin := x }

@[simp] theorem State.withFin_osc (x : FloatIn) (s : State) : (s.withFin x).osc = s.osc := rfl
@[simp] theorem State.withFin_env (x : FloatIn) (s : State) : (s.withFin x).env = s.env := rfl
@[simp] theorem toneOf_withFin (sym : Byte) (x : FloatIn) (s : State) : toneOf sym (s.withFin x) = toneOf sym s := rfl

/-- A guarded command commutes with a change of the float port when its body does. -/
theorem next_unlessFaulted_withFin {s b b' t : State} {x : FloatIn} (hBody : b' = b.withFin x)
    (h : (.next (unlessFaulted s b) : Result) = .next t) :
    (.next (unlessFaulted (s.withFin x) b') : Result) = .next (t.withFin x) := by
  obtain rfl := Host.Outcome.next.inj h
  rw [hBody, unlessFaulted, unlessFaulted, apply_ite (State.withFin x)]
  rfl

/-- A register write does the same whatever the float port shows. -/
theorem writeCfg_withFin (r : CfgReg) (v : Word32) (s : State) (x : FloatIn) :
    writeCfg r v (s.withFin x) = (writeCfg r v s).withFin x := by
  cases r with
  | ctrl =>
    simp only [writeCfg, apply_ite (State.withFin x)]
    rfl
  | ron | roff | status | fcmdl | fcmdh => rfl

/-- Settles O48: the body of every command but `QNT` commutes with a change of the float port. -/
theorem theFloatInputIsReadByQntAlone : Obligations.TheFloatInputIsReadByQntAlone := by
  intro i s t x hNotQnt h
  change exec i (s.withFin x) = .next (t.withFin x)
  cases i with
  | oscStart sym rate =>
    refine next_unlessFaulted_withFin ?_ h
    rw [toneOf_withFin]
    cases toneOf sym s with
    | none => rfl
    | some p => dsimp only; rw [apply_ite (State.withFin x)]; rfl
  | oscNext =>
    refine next_unlessFaulted_withFin ?_ h
    rw [State.withFin_osc]
    cases s.osc with
    | none => rfl
    | some o => dsimp only; rw [apply_ite (State.withFin x)]; rfl
  | envStart uo n =>
    refine next_unlessFaulted_withFin ?_ h
    rw [apply_ite (State.withFin x)]
    rfl
  | envNext =>
    refine next_unlessFaulted_withFin ?_ h
    rw [State.withFin_env]
    cases s.env with
    | none => rfl
    | some e => dsimp only; rw [apply_ite (State.withFin x)]; rfl
  | nseNext | rngDraw | rngSeed seed => exact next_unlessFaulted_withFin rfl h
  | qnt depth => exact absurd rfl (hNotQnt depth)
  | wrc reg v =>
    refine next_unlessFaulted_withFin ?_ h
    cases cfgReg reg with
    | none => rfl
    | some r => exact writeCfg_withFin r v s x
  | rdc reg =>
    cases hReg : cfgReg reg with
    | none =>
      simp only [exec, execRdc, hReg] at h ⊢
      exact next_unlessFaulted_withFin rfl h
    | some r =>
      rw [exec_rdc_of_assigned hReg] at h ⊢
      obtain rfl := Host.Outcome.next.inj h
      cases r <;> rfl
  | clr =>
    obtain rfl := Host.Outcome.next.inj h
    rfl

/-- What the fields of a command's response hold, and when (rule R29): the conclusion of O49. -/
abbrev ResponseUse (i : Instr) (t : State) : Prop :=
  ∃ r, t.rsp = some r ∧ isStatusCode r.st ∧
    (r.f ≠ Sample.ofRat 0 → r.st = 0x0#4 ∧ (i = .oscNext ∨ i = .envNext ∨ i = .nseNext ∨ i = .rngDraw)) ∧
    (r.i ≠ 0#32 → r.st = 0x0#4 ∧ ((∃ depth, i = .qnt depth) ∨ ∃ reg, i = .rdc reg))

theorem ResponseUse.bare {i : Instr} {t : State} {st : BitVec 4} (hSt : isStatusCode st)
    (hRsp : t.rsp = some ⟨st, Sample.ofRat 0, 0#32⟩) : ResponseUse i t :=
  ⟨_, hRsp, hSt, fun hf => absurd rfl hf, fun hi => absurd rfl hi⟩

theorem ResponseUse.float {i : Instr} {t : State} {f : Sample}
    (hInstr : i = .oscNext ∨ i = .envNext ∨ i = .nseNext ∨ i = .rngDraw) (hRsp : t.rsp = some ⟨stOk, f, 0#32⟩) :
    ResponseUse i t :=
  ⟨_, hRsp, .inl rfl, fun _ => ⟨rfl, hInstr⟩, fun hi => absurd rfl hi⟩

theorem ResponseUse.int {i : Instr} {t : State} {v : Word32}
    (hInstr : (∃ depth, i = .qnt depth) ∨ ∃ reg, i = .rdc reg) (hRsp : t.rsp = some ⟨stOk, Sample.ofRat 0, v⟩) :
    ResponseUse i t :=
  ⟨_, hRsp, .inl rfl, fun hf => absurd rfl hf, fun _ => ⟨rfl, hInstr⟩⟩

/-- Settles O49: every response is bare, or an `OK` with a float, or an `OK` with an integer. -/
theorem unusedResponseFieldsAreZero : Obligations.UnusedResponseFieldsAreZero := by
  intro i s t h
  change ResponseUse i t
  rcases exec_inv h with ⟨-, rfl⟩ | ⟨-, c, rfl⟩ | hDone
  · exact .bare (by decide) rfl
  · exact .bare (isStatusCode_code c) rfl
  · cases i with
    | oscStart sym rate =>
      obtain ⟨-, p, -, -, rfl⟩ := hDone
      exact .bare (.inl rfl) rfl
    | oscNext =>
      obtain ⟨-, o, -, -, rfl⟩ := hDone
      exact .float (by simp) rfl
    | envStart uo n =>
      obtain ⟨-, -, rfl⟩ := hDone
      exact .bare (.inl rfl) rfl
    | envNext =>
      obtain ⟨-, e, -, ⟨-, rfl⟩ | ⟨-, rfl⟩⟩ := hDone
      · exact .bare (.inr (.inl rfl)) rfl
      · exact .float (by simp) rfl
    | nseNext | rngDraw =>
      obtain ⟨-, rfl⟩ := hDone
      exact .float (by simp) rfl
    | rngSeed seed =>
      obtain ⟨-, rfl⟩ := hDone
      exact .bare (.inl rfl) rfl
    | qnt depth =>
      obtain ⟨-, x, -, -, -, rfl⟩ := hDone
      exact .int (.inl ⟨depth, rfl⟩) rfl
    | wrc reg v => obtain ⟨-, ⟨-, -, rfl⟩ | ⟨-, rfl⟩ | ⟨-, rfl⟩⟩ := hDone <;> exact .bare (.inl rfl) rfl
    | rdc reg =>
      obtain ⟨r, -, rfl⟩ := hDone
      exact .int (.inr ⟨reg, rfl⟩) rfl
    | clr =>
      obtain rfl := hDone
      exact .bare (.inl rfl) rfl

/-! ## Reset -/

/-- Settles O8: `RST` leaves `hardReset`, `CLR` leaves `returnFromFault`, and the fields are theirs. -/
theorem resetAndClrLeaveTheResetTable : Obligations.ResetAndClrLeaveTheResetTable :=
  ⟨fun s rest hInbox => ⟨hardReset (takeEvent rest s), by simp [step, hInbox], by simp⟩,
   fun s => ⟨respondOk (returnFromFault s), rfl, by simp⟩, by simp [State.reset]⟩

/-- Settles O51: nothing is live or recorded after reset, and the open Tone Table is positive by construction. -/
theorem resetMeetsTheInvariant : Obligations.ResetMeetsTheInvariant where
  osc := nofun
  env := nofun
  ctrlReserved := rfl
  record := ⟨rfl, rfl, rfl⟩
  tones j := by
    simp only [State.reset, Config.toneTable, Fin.getElem_fin, Vector.getElem_map]
    exact positivePair_pos _
  response := nofun

/-! ## The invariant -/

/-- A well-formed response keeps the invariant. -/
theorem State.Inv.respond {s : State} (h : s.Inv) {st : BitVec 4} {f : Sample} {i : Word32}
    (hr : Response.Wf ⟨st, f, i⟩) : (respond st f i s).Inv where
  __ := h
  response := by rintro _ ⟨⟩; exact hr

/-- An `OK` with at most one result is well formed (rule R29). -/
theorem Response.wf_ok {f : Sample} {i : Word32} (h : f = Sample.ofRat 0 ∨ i = 0#32) : Response.Wf ⟨stOk, f, i⟩ :=
  ⟨.inl rfl, fun hst => absurd rfl hst, h⟩

theorem Response.wf_bare {st : BitVec 4} (h : isStatusCode st) : Response.Wf ⟨st, Sample.ofRat 0, 0#32⟩ :=
  ⟨h, fun _ => ⟨rfl, rfl⟩, .inl rfl⟩

theorem State.Inv.refuse {s : State} (h : s.Inv) : (refuse s).Inv := h.respond (Response.wf_bare (by decide))

theorem State.Inv.respondOk {s : State} (h : s.Inv) : (respondOk s).Inv := h.respond (Response.wf_bare (by decide))

theorem State.Inv.respondFloat {s : State} (h : s.Inv) (f : Sample) : (respondFloat f s).Inv :=
  h.respond (Response.wf_ok (.inr rfl))

theorem State.Inv.respondInt {s : State} (h : s.Inv) (i : Word32) : (respondInt i s).Inv :=
  h.respond (Response.wf_ok (.inl rfl))

/-- Fault entry keeps the invariant: the record holds a fault's code (rules R34, R226). -/
theorem State.Inv.raise {s : State} (h : s.Inv) (c : Cause) : (raise c s).Inv :=
  have hRecorded : State.Inv
      { s with fault := true, fcause := Cause.code c, fcmdl := cmdLow s.cmd, fcmdh := cmdHigh s.cmd } :=
    { h with record := isFaultCode_code c }
  hRecorded.respond (Response.wf_bare (isStatusCode_code c))

theorem State.Inv.afterDraw {s : State} (h : s.Inv) : (afterDraw s).Inv := { h with }

theorem State.Inv.withOsc {s : State} (h : s.Inv) {o : OscInst} (ho : o.Wf) : State.Inv { s with osc := some o } :=
  { h with osc := by rintro _ ⟨⟩; exact ho }

theorem State.Inv.withEnv {s : State} (h : s.Inv) {e : EnvInst} (he : e.Wf) : State.Inv { s with env := some e } :=
  { h with env := by rintro _ ⟨⟩; exact he }

theorem State.Inv.withCtrl {s : State} (h : s.Inv) {v : Word32} (hv : v >>> 2 = 0#32) :
    State.Inv { s with ctrl := v } :=
  { h with ctrlReserved := hv }

theorem State.Inv.returnFromFault {s : State} (h : s.Inv) : (returnFromFault s).Inv :=
  { h with osc := nofun, env := nofun, record := ⟨rfl, rfl, rfl⟩ }

theorem State.Inv.hardReset {s : State} (h : s.Inv) : (hardReset s).Inv :=
  { resetMeetsTheInvariant with tones := h.tones }

/-- A new oscillator is in the ranges of rule R22. -/
theorem oscCreate_wf {v : Vector TonePair 16} (h : tonesWf v) (j : Fin 16) (r r' : RngState) {rate : Nat}
    (hRate : rate ≠ 0) (hFits : rate < Config.idxLimit) :
    (oscCreate v[j] (Config.rngUnit r).1 (Config.rngUnit r').1 rate).Wf := by
  have phase (q : RngState) : 0 ≤ 2 * (Config.rngUnit q).1 ∧ 2 * (Config.rngUnit q).1 < 2 :=
    ⟨by linarith [rngUnit_nonneg q], by linarith [rngUnit_lt_one q]⟩
  exact ⟨(h j).1, (h j).2, (phase r).1, (phase r).2, (phase r').1, (phase r').2, Nat.one_le_iff_ne_zero.mpr hRate,
    hFits, Nat.zero_le _⟩

/-- An oscillator whose index has not run out stays in range when it advances (rules R22, R105). -/
theorem OscInst.Wf.advance {o : OscInst} (h : o.Wf) (hn : o.n ≠ Config.idxLimit) :
    OscInst.Wf { o with n := o.n + 1 } := by
  obtain ⟨hLo, hHi, hLo0, hLo2, hHi0, hHi2, hRate, hFits, hIdx⟩ := h
  exact ⟨hLo, hHi, hLo0, hLo2, hHi0, hHi2, hRate, hFits, lt_of_le_of_ne hIdx hn⟩

/-- A new envelope that `ENV.START` does not refuse is in the ranges of rule R23 (rule R129). -/
theorem envCreate_wf {uo : Bool} {n : Nat} {s : State} (hn : n < Config.idxLimit)
    (hDivisor : ¬(0 < n ∧ 0 < rollOff uo s ∧ releaseDivisor uo s = 0)) : (envCreate uo n s).Wf := by
  have hRoff : rollOff uo s < Config.idxLimit := by
    unfold rollOff
    split
    · exact s.roff.isLt
    · exact s.ron.isLt
  have hChoice : releaseDivisor uo s = rollOn s ∨ releaseDivisor uo s = rollOff uo s := by
    unfold releaseDivisor
    split
    · exact .inr rfl
    · exact .inl rfl
  exact ⟨hn, s.ron.isLt, hRoff, hChoice, Nat.zero_le _, hDivisor⟩

/-- An envelope not at its end stays in range when it advances (rules R23, R125). -/
theorem EnvInst.Wf.advance {e : EnvInst} (h : e.Wf) (hk : e.k ≠ e.total) : EnvInst.Wf { e with k := e.k + 1 } := by
  obtain ⟨hTotal, hRon, hRoff, hChoice, hIdx, hDivisor⟩ := h
  exact ⟨hTotal, hRon, hRoff, hChoice, lt_of_le_of_ne hIdx hk, hDivisor⟩

/-- A command with operands that fit their fields keeps the invariant when it runs to its own end. -/
theorem State.Inv.completed {i : Instr} {s t : State} (h : s.Inv) (hFits : i.wellFormed = true)
    (hDone : Completed i s t) : t.Inv := by
  cases i with
  | oscStart sym rate =>
    obtain ⟨-, p, hp, hRate, rfl⟩ := hDone
    obtain ⟨j, -, rfl⟩ := Option.map_eq_some_iff.mp hp
    exact (h.afterDraw.afterDraw.withOsc (oscCreate_wf h.tones j _ _ hRate (fitsImm_iff.mp hFits))).respondOk
  | oscNext =>
    obtain ⟨-, o, ho, hn, rfl⟩ := hDone
    exact (h.withOsc ((h.osc o ho).advance hn)).respondFloat _
  | envStart uo n =>
    obtain ⟨-, hDivisor, rfl⟩ := hDone
    exact (h.withEnv (envCreate_wf (fitsImm_iff.mp hFits) hDivisor)).respondOk
  | envNext =>
    obtain ⟨-, e, he, ⟨-, rfl⟩ | ⟨hk, rfl⟩⟩ := hDone
    · exact h.respond (Response.wf_bare (by decide))
    · exact (h.withEnv ((h.env e he).advance hk)).respondFloat _
  | nseNext | rngDraw =>
    obtain ⟨-, rfl⟩ := hDone
    exact h.afterDraw.respondFloat _
  | rngSeed seed =>
    obtain ⟨-, rfl⟩ := hDone
    exact State.Inv.respondOk { h with }
  | qnt depth =>
    obtain ⟨-, x, -, -, -, rfl⟩ := hDone
    exact h.respondInt _
  | wrc reg v =>
    obtain ⟨-, ⟨-, hv, rfl⟩ | ⟨-, rfl⟩ | ⟨-, rfl⟩⟩ := hDone
    · exact (h.withCtrl hv).respondOk
    · exact State.Inv.respondOk { h with }
    · exact State.Inv.respondOk { h with }
  | rdc reg =>
    obtain ⟨r, -, rfl⟩ := hDone
    exact h.respondInt _
  | clr =>
    obtain rfl := hDone
    exact h.returnFromFault.respondOk

/-- A command with operands that fit their fields keeps the invariant. -/
theorem State.Inv.exec {i : Instr} {s t : State} (h : s.Inv) (hFits : i.wellFormed = true)
    (hExec : exec i s = .next t) : t.Inv := by
  rcases exec_inv hExec with ⟨-, rfl⟩ | ⟨-, c, rfl⟩ | hDone
  · exact h.refuse
  · exact h.raise c
  · exact h.completed hFits hDone

theorem State.Inv.illegalWord {s : State} (h : s.Inv) : (illegalWord s).Inv := by
  unfold Machine.illegalWord unlessFaulted
  split
  · exact h.refuse
  · exact h.raise .illegal

/-- A presented word keeps the invariant, whether or not it is a command. -/
theorem State.Inv.present {w : CmdWord} {f : FloatIn} {s t : State} (h : s.Inv) (hStep : present w f s = .next t) :
    t.Inv := by
  have hLatched : (latch w f s).Inv := { h with }
  unfold Machine.present at hStep
  split at hStep
  · next i hDecode => exact hLatched.exec (wellFormed_of_decode hDecode) hStep
  · obtain rfl := Host.Outcome.next.inj hStep
    exact hLatched.illegalWord

/-- Settles O50: a step holds the state, presents a word, or resets. -/
theorem everyStepKeepsTheInvariant : Obligations.EveryStepKeepsTheInvariant := by
  intro s t h hStep
  unfold step at hStep
  split at hStep
  · obtain rfl := Host.Outcome.next.inj hStep
    exact h
  · next w f rest _ => exact State.Inv.present (s := takeEvent rest s) { h with } hStep
  · next rest _ =>
    obtain rfl := Host.Outcome.next.inj hStep
    exact State.Inv.hardReset (s := takeEvent rest s) { h with }

end Sys2Proof.Machine
end

section
/-! Proofs. Serialised words read back, and the stream of draws. -/

namespace Sys2Proof

/-! ## Bytes of words -/

/-- The decoder reads a well-formed command back from its word (rules R71 to R80). -/
theorem decode_encode {i : Instr} (h : i.wellFormed = true) : decode (encode i) = .ok i := by
  cases i with
  | oscNext | envNext | nseNext | rngDraw | clr => decide
  | rngSeed seed => simp [encode, decode, checked_eq_ok]
  | oscStart sym rate =>
    have hFits := Nat.mod_eq_of_lt (fitsImm_iff.mp h)
    simp [encode, decode, checked_eq_ok, hFits]
  | envStart uo n =>
    have hFits := Nat.mod_eq_of_lt (fitsImm_iff.mp h)
    cases uo <;> simp [encode, decode, checked_eq_ok, hFits]
  | qnt k | wrc k v | rdc k =>
    have hFits := Nat.mod_eq_of_lt (fitsA_iff.mp h)
    simp [encode, decode, checked_eq_ok, hFits]

/-- A command word is made of its eight bytes (rule R52). -/
theorem wordOfBytes_extractLsb' (w : CmdWord) :
    wordOfBytes (w.extractLsb' 0 8) (w.extractLsb' 8 8) (w.extractLsb' 16 8) (w.extractLsb' 24 8)
      (w.extractLsb' 32 8) (w.extractLsb' 40 8) (w.extractLsb' 48 8) (w.extractLsb' 56 8) = w := by
  unfold wordOfBytes
  repeat rw [BitVec.extractLsb'_append_extractLsb'_eq_extractLsb' (by rfl)]
  exact BitVec.extractLsb'_eq_self

/-- Eight bytes whose word is a command decode to that command, and the bytes after them are left (rule R70). -/
theorem decodeBytes_of_decode {b0 b1 b2 b3 b4 b5 b6 b7 : Byte} {i : Instr}
    (h : decode (wordOfBytes b0 b1 b2 b3 b4 b5 b6 b7) = .ok i) (rest : List Byte) :
    decodeBytes (b0 :: b1 :: b2 :: b3 :: b4 :: b5 :: b6 :: b7 :: rest) = .ok (i, rest) := by
  rw [decodeBytes, h]

/-- A stream that begins with the bytes of a command's word decodes to that command (rules R52, R70). -/
theorem decodeBytes_wordBytes_append {w : CmdWord} {i : Instr} (h : decode w = .ok i) (rest : List Byte) :
    decodeBytes (wordBytes w ++ rest) = .ok (i, rest) :=
  decodeBytes_of_decode (by rw [← h]; exact congrArg decode (wordOfBytes_extractLsb' w)) rest

/-- Fewer than eight bytes are no word (rule R70). -/
theorem decodeBytes_of_length_lt {bs : List Byte} (h : bs.length < 8) : decodeBytes bs = .error .shortWord := by
  unfold decodeBytes
  split
  · simp only [List.length_cons] at h
    omega
  · rfl

/-- The four bytes of a response integer read as it (rule R52). -/
theorem resultOfBytes_resultBytes (i : Word32) : resultOfBytes (resultBytes i) = some i :=
  congrArg some (word32_eq_bytes i).symm

/-- The byte appended at the low end is written out first (rule R52). -/
theorem leBytes_append {width : Nat} (count : Nat) (x : BitVec width) (b : Byte) :
    leBytes (count + 1) (x ++ b) = b :: leBytes count x := by
  rw [leBytes, List.range_succ_eq_map, List.map_cons, List.map_map]
  congr 1
  · exact BitVec.extractLsb'_append_eq_right
  · refine List.map_congr_left fun j _ => ?_
    exact BitVec.extractLsb'_append_eq_of_le (by omega)

/-- The bytes that read as a response integer are the four it is written out as (rule R52). -/
theorem resultBytes_of_resultOfBytes {bs : List Byte} {i : Word32} (h : resultOfBytes bs = some i) :
    resultBytes i = bs := by
  unfold resultOfBytes at h
  split at h
  · next b0 b1 b2 b3 =>
    obtain rfl := Option.some.inj h
    calc leBytes 4 (b3 ++ b2 ++ b1 ++ b0)
      _ = b0 :: b1 :: b2 :: leBytes 1 b3 := by rw [leBytes_append, leBytes_append, leBytes_append]
      _ = [b0, b1, b2, b3] := by simp [leBytes]
  · cases h

/-- Settles O5: the eight bytes put together are the word again, and the four bytes are the integer. -/
theorem serialisedCommandsDecodeInOrder : Obligations.SerialisedCommandsDecodeInOrder :=
  ⟨by decide, fun _ rest h => decodeBytes_wordBytes_append (decode_encode h) rest,
    fun _ => decodeBytes_of_length_lt, fun _ => rfl, fun r => resultOfBytes_resultBytes r.i,
    fun _ _ => resultBytes_of_resultOfBytes⟩

end Sys2Proof

namespace Sys2Proof.Machine

/-! ## The stream of draws -/

/-- `m + k` draws are `m` draws and then `k` (rule R56). -/
theorem rngAfter_add (m k : Nat) (r : RngState) : rngAfter (m + k) r = rngAfter k (rngAfter m r) := by
  induction m generalizing r with
  | zero => rw [Nat.zero_add, rngAfter]
  | succ m ih => rw [Nat.succ_add, rngAfter, rngAfter, ih]

/-- After `m` draws the next one receives the stream's value at place `m`. -/
theorem unitAt_add (m k : Nat) (r : RngState) : unitAt (m + k) r = unitAt k (rngAfter m r) := by
  rw [unitAt, rngAfter_add, unitAt]

/-- A command other than `RNG.SEED` advances the random source by its draws if it answers `OK`, and not at all
otherwise (rule R146). -/
theorem rng_of_exec {i : Instr} {s t : State} (h : exec i s = .next t) (hSeed : ∀ sd, i ≠ .rngSeed sd) :
    t.rng = rngAfter (if isOk t.rsp then drawsOf i else 0) s.rng := by
  rcases exec_inv h with ⟨-, rfl⟩ | ⟨-, c, rfl⟩ | hDone
  · rfl
  · cases c <;> rfl
  · cases i with
    | oscStart sym rate =>
      obtain ⟨-, p, -, -, rfl⟩ := hDone
      rfl
    | nseNext | rngDraw =>
      obtain ⟨-, rfl⟩ := hDone
      rfl
    | rngSeed seed => exact absurd rfl (hSeed seed)
    | oscNext | envStart uo n | envNext | qnt depth | wrc reg v | rdc reg | clr =>
      obtain ⟨-, -, hRng, -⟩ := onlyTheNamedCommandsWriteEachPieceOfState _ s t h
      simpa [drawsOf, rngAfter] using hRng

/-- Every command completes, with the state `afterCommand` names (rule R262). -/
theorem exec_eq_afterCommand (c : Presented) (s : State) :
    exec c.1 (latch (encode c.1) c.2 s) = .next (afterCommand c s) := by
  rcases exec_cases c.1 (latch (encode c.1) c.2 s) with ⟨-, h⟩ | ⟨-, _, h⟩ | ⟨_, h, -⟩ <;> rw [afterCommand, h]

/-- A run without `RNG.SEED` advances the random source by the draws it made (rule R146). -/
theorem rng_afterRun {cs : List Presented} (hSeed : ∀ c ∈ cs, ∀ sd, c.1 ≠ .rngSeed sd) (s : State) :
    (afterRun cs s).rng = rngAfter (drawsMade (transcript cs s)) s.rng := by
  induction cs generalizing s with
  | nil => rfl
  | cons c cs ih =>
    obtain ⟨hHead, hTail⟩ := List.forall_mem_cons.mp hSeed
    have hStep := rng_of_exec (exec_eq_afterCommand c s) hHead
    rw [latch_rng] at hStep
    rw [afterRun, ih hTail, hStep, ← rngAfter_add]
    rfl

/-- `RNG.DRAW` outside fault state (rule R144). -/
theorem exec_rngDraw_of_ready {s : State} (hReady : s.fault = false) :
    exec .rngDraw s = .next (respondFloat (Sample.ofRat (drawnUnit s)) (afterDraw s)) := by
  rw [exec, execRngDraw, unlessFaulted_of_ready hReady]

/-- `NSE.NEXT` outside fault state (rule R143). -/
theorem exec_nseNext_of_ready {s : State} (hReady : s.fault = false) :
    exec .nseNext s = .next (respondFloat (Sample.ofRat (noiseOf (drawnUnit s))) (afterDraw s)) := by
  rw [exec, execNseNext, unlessFaulted_of_ready hReady]

/-- `OSC.START` of a symbol with a tone pair at a rate above 0, outside fault state (rule R103). -/
theorem exec_oscStart_of_tone {sym : Byte} {rate : Nat} {p : TonePair} {s : State} (hReady : s.fault = false)
    (hTone : toneOf sym s = some p) (hRate : rate ≠ 0) : exec (.oscStart sym rate) s = .next (oscBegin p rate s) := by
  simp only [exec, execOscStart, unlessFaulted_of_ready hReady, hTone, if_neg hRate]

/-- Every symbol of the alphabet has its tone pair (rules R76, R101). -/
theorem toneOf_of_mem_alphabet {sym : Byte} (h : sym ∈ RefHost.alphabet) (s : State) :
    ∃ p, toneOf sym s = some p := by
  obtain ⟨j, hj⟩ := symbolIndex_some sym h
  exact ⟨s.tones[j], by rw [toneOf, hj, Option.map_some]⟩

/-- A command's state after it is the one its meaning answers. -/
theorem afterCommand_of_exec {i : Instr} {f : FloatIn} {s t : State}
    (h : exec i (latch (encode i) f s) = .next t) : afterCommand (i, f) s = t := by
  rw [afterCommand, h]

/-- Settles O34: the run leaves the random source at its m-th state, and each drawing command draws from there. -/
theorem theKthDrawReceivesTheKthValue : Obligations.TheKthDrawReceivesTheKthValue := by
  intro cs f s hSeed hReady
  have hRng := rng_afterRun hSeed s
  have hUnit (k : Nat) : unitAt (drawsMade (transcript cs s) + k) s.rng = unitAt k (afterRun cs s).rng := by
    rw [unitAt_add, hRng]
  have hFirst := hUnit 0
  rw [Nat.add_zero] at hFirst
  rw [hFirst, hUnit 1]
  refine ⟨?_, ?_, fun sym rate hSym hRate => ?_⟩
  · rw [afterCommand_of_exec (exec_rngDraw_of_ready hReady)]
    rfl
  · rw [afterCommand_of_exec (exec_nseNext_of_ready hReady)]
    rfl
  · obtain ⟨p, hTone⟩ := toneOf_of_mem_alphabet hSym (afterRun cs s)
    rw [afterCommand_of_exec (exec_oscStart_of_tone hReady hTone hRate.ne')]
    exact ⟨rfl, _, rfl, Angle.toReal_twoPiTimes _, Angle.toReal_twoPiTimes _⟩

end Sys2Proof.Machine
end

section
/-! Proofs. Words and commands: the encoder and the table of match and mask values against the decoder, the fault of
an illegal word, and `OSC.START`. -/

namespace Sys2Proof

/-! ## Encoding what a word decodes to -/

/-- Settles O1, by `decode_encode`: the encoder lays each operand in its field and the decoder reads it there. -/
theorem decodeOfEncodeIsTheCommand : Obligations.DecodeOfEncodeIsTheCommand := fun _ => decode_encode

/-- A byte that must be zero in every bit is zero (rule R80). -/
theorem eq_zero_of_and_allOnes {a : Byte} (h : a &&& 0xFF#8 = 0#8) : a = 0#8 := BitVec.and_allOnes.symm.trans h

/-- A byte that must be zero above bit 0 is the byte `ENV.START` encodes that bit in (rules R78, R80). -/
theorem eq_ite_bit_zero_of_and :
    ∀ a : Byte, a &&& 0xFE#8 = 0#8 → a = if a.getLsbD 0 then 1#8 else 0#8 := by decide

/-- The encoder gives back the word a command was decoded from: each field of it is an operand, or must be zero
(rules R71, R80). -/
theorem encode_of_decode {w : CmdWord} {i : Instr} (h : decode w = .ok i) : encode i = w := by
  have hNat {n : Nat} (x : BitVec n) : x = BitVec.ofNat n x.toNat := by simp
  rcases decode_cases h with ⟨hOp, h⟩ | ⟨hOp, h⟩ | ⟨hOp, h⟩ | ⟨hOp, h⟩ | ⟨hOp, h⟩ | ⟨hOp, h⟩ | ⟨hOp, h⟩ |
    ⟨hOp, h⟩ | ⟨hOp, h⟩ | ⟨hOp, h⟩ | ⟨hOp, h⟩ <;>
    obtain ⟨hZ, hA, hImm, rfl⟩ := checked_eq_ok.mp h
  · exact formatC_fields hOp rfl hZ (hNat _)
  · exact formatC_fields hOp (eq_zero_of_and_allOnes hA) hZ (hImm rfl)
  · exact formatC_fields hOp (eq_ite_bit_zero_of_and _ hA) hZ (hNat _)
  · exact formatC_fields hOp (eq_zero_of_and_allOnes hA) hZ (hImm rfl)
  · exact formatC_fields hOp (eq_zero_of_and_allOnes hA) hZ (hImm rfl)
  · exact formatC_fields hOp (eq_zero_of_and_allOnes hA) hZ (hImm rfl)
  · exact formatC_fields hOp (eq_zero_of_and_allOnes hA) hZ rfl
  · exact formatC_fields hOp (hNat _) hZ (hImm rfl)
  · exact formatC_fields hOp (hNat _) hZ rfl
  · exact formatC_fields hOp (hNat _) hZ (hImm rfl)
  · exact formatC_fields hOp (eq_zero_of_and_allOnes hA) hZ (hImm rfl)

/-- Settles O2: the word is made of the command's fields, and its operands fit the fields they come from. -/
theorem encodeOfDecodeIsTheWord : Obligations.EncodeOfDecodeIsTheWord := fun _ _ h =>
  ⟨encode_of_decode h, Machine.wellFormed_of_decode h⟩

/-! ## The table of match and mask values -/

/-- Two words made of a high and a low part of the same widths are equal in both parts. -/
theorem append_inj {m n : Nat} {x x' : BitVec m} {y y' : BitVec n} (h : x ++ y = x' ++ y') : x = x' ∧ y = y' := by
  constructor
  · rw [← BitVec.extractLsb'_append_eq_left (a := x) (b := y), h, BitVec.extractLsb'_append_eq_left]
  · rw [← BitVec.extractLsb'_append_eq_right (a := x) (b := y), h, BitVec.extractLsb'_append_eq_right]

/-- A word that matches a row has the row's opcode and passes the check of the must-be-zero fields: every row's mask
has all of `OP` and `Z`, and its match value is 0 outside `OP` (rules R73, R80). -/
theorem checked_of_and_eq {w : CmdWord} (op aZero : Byte) (immZero : Bool)
    (h : w &&& (0xFF#8 ++ aZero ++ 0xFFFF#16 ++ if immZero then 0xFFFFFFFF#32 else 0#32) = formatC op 0#8 0#32) :
    fieldOp w = op ∧ ∀ i, checked w aZero immZero i = .ok i := by
  rw [word_eq_fields w, BitVec.and_append, BitVec.and_append, BitVec.and_append] at h
  obtain ⟨h, hImm⟩ := append_inj h
  obtain ⟨h, hZ⟩ := append_inj h
  obtain ⟨hOp, hA⟩ := append_inj h
  refine ⟨BitVec.and_allOnes.symm.trans hOp, fun i => checked_eq_ok.mpr
    ⟨BitVec.and_allOnes.symm.trans hZ, hA, fun hZero => ?_, rfl⟩⟩
  rw [if_pos hZero] at hImm
  exact BitVec.and_allOnes.symm.trans hImm

/-- A word that matches a row decodes to a command of that row (rule R73). Each row is given by its opcode, the bits of
`A` it wants zero, and whether it wants `IMM` zero. -/
theorem decode_of_row {r : Row} (hr : r ∈ opcodeRows) {w : CmdWord} (h : w &&& r.mask = r.matchBits) :
    ∃ i, decode w = .ok i ∧ i.mnemonic = r.mnemonic := by
  simp only [opcodeRows, List.mem_cons, List.not_mem_nil, or_false] at hr
  rcases hr with rfl | rfl | rfl | rfl | rfl | rfl | rfl | rfl | rfl | rfl | rfl
  · simp [decode, checked_of_and_eq 0x10#8 0x00#8 false h, Instr.mnemonic]
  · simp [decode, checked_of_and_eq 0x11#8 0xFF#8 true h, Instr.mnemonic]
  · simp [decode, checked_of_and_eq 0x20#8 0xFE#8 false h, Instr.mnemonic]
  · simp [decode, checked_of_and_eq 0x21#8 0xFF#8 true h, Instr.mnemonic]
  · simp [decode, checked_of_and_eq 0x30#8 0xFF#8 true h, Instr.mnemonic]
  · simp [decode, checked_of_and_eq 0x31#8 0xFF#8 true h, Instr.mnemonic]
  · simp [decode, checked_of_and_eq 0x32#8 0xFF#8 false h, Instr.mnemonic]
  · simp [decode, checked_of_and_eq 0x40#8 0x00#8 true h, Instr.mnemonic]
  · simp [decode, checked_of_and_eq 0x50#8 0x00#8 false h, Instr.mnemonic]
  · simp [decode, checked_of_and_eq 0x51#8 0x00#8 true h, Instr.mnemonic]
  · simp [decode, checked_of_and_eq 0x52#8 0xFF#8 true h, Instr.mnemonic]

/-- A command's word matches a row that bears the command's mnemonic (rule R73). -/
theorem row_of_encode (i : Instr) : ∃ r ∈ opcodeRows, r.mnemonic = i.mnemonic ∧ encode i &&& r.mask = r.matchBits := by
  have hRow : Laws.EncodeMatchesRow.Statement i := by
    cases i with
    | oscStart sym rate => exact Laws.EncodeMatchesRow.oscStart sym rate
    | oscNext => exact Laws.EncodeMatchesRow.oscNext
    | envStart uo n => exact Laws.EncodeMatchesRow.envStart uo n
    | envNext => exact Laws.EncodeMatchesRow.envNext
    | nseNext => exact Laws.EncodeMatchesRow.nseNext
    | rngDraw => exact Laws.EncodeMatchesRow.rngDraw
    | rngSeed seed => exact Laws.EncodeMatchesRow.rngSeed seed
    | qnt depth => exact Laws.EncodeMatchesRow.qnt depth
    | wrc reg value => exact Laws.EncodeMatchesRow.wrc reg value
    | rdc reg => exact Laws.EncodeMatchesRow.rdc reg
    | clr => exact Laws.EncodeMatchesRow.clr
  obtain ⟨r, hMem, hName, hCovers⟩ := hRow
  exact ⟨r, hMem, hName, beq_iff_eq.mp hCovers⟩

/-- A word that decodes matches a row that bears the command's mnemonic (rule R73). -/
theorem row_of_decode {w : CmdWord} {i : Instr} (h : decode w = .ok i) :
    ∃ r ∈ opcodeRows, r.mnemonic = i.mnemonic ∧ w &&& r.mask = r.matchBits :=
  encode_of_decode h ▸ row_of_encode i

/-- No two rows of the table bear the same mnemonic (rule R73). -/
theorem row_eq_of_mnemonic {r r' : Row} (hr : r ∈ opcodeRows) (hr' : r' ∈ opcodeRows)
    (h : r.mnemonic = r'.mnemonic) : r = r' := by
  have hNodup : (opcodeRows.map Row.mnemonic).Nodup := by decide
  exact List.inj_on_of_nodup_map hNodup hr hr' h

/-- A word matches a row iff it decodes to a command with the row's mnemonic (rule R73). -/
theorem matches_row_iff {r : Row} (hr : r ∈ opcodeRows) (w : CmdWord) :
    w &&& r.mask = r.matchBits ↔ ∃ i, decode w = .ok i ∧ i.mnemonic = r.mnemonic := by
  refine ⟨decode_of_row hr, fun ⟨i, hDecode, hName⟩ => ?_⟩
  obtain ⟨r', hr', hName', hMatch⟩ := row_of_decode hDecode
  rwa [← row_eq_of_mnemonic hr' hr (hName'.trans hName)]

/-- A word matches at most one row (rule R73). -/
theorem row_unique {r r' : Row} (hr : r ∈ opcodeRows) (hr' : r' ∈ opcodeRows) {w : CmdWord}
    (h : w &&& r.mask = r.matchBits) (h' : w &&& r'.mask = r'.matchBits) : r = r' := by
  obtain ⟨i, hDecode, hName⟩ := decode_of_row hr h
  obtain ⟨i', hDecode', hName'⟩ := decode_of_row hr' h'
  obtain rfl := Except.ok.inj (hDecode.symm.trans hDecode')
  exact row_eq_of_mnemonic hr hr' (hName.symm.trans hName')

/-- The words that match no row are the ones the decoder rejects (rules R73, R81). -/
theorem no_row_iff_decode_error (w : CmdWord) :
    (∀ r ∈ opcodeRows, w &&& r.mask ≠ r.matchBits) ↔ ∃ e, decode w = .error e := by
  constructor
  · intro hNone
    cases hDecode : decode w with
    | error e => exact ⟨e, rfl⟩
    | ok i =>
      obtain ⟨r, hr, -, hMatch⟩ := row_of_decode hDecode
      exact absurd hMatch (hNone r hr)
  · rintro ⟨e, hError⟩ r hr hMatch
    obtain ⟨i, hDecode, -⟩ := decode_of_row hr hMatch
    exact nomatch hError.symm.trans hDecode

/-- Settles O3: the two directions of the table, and the operands as `decode_cases` names them; a command without
operands is its one word. -/
theorem wordIsACommandIffItMatchesARow : Obligations.WordIsACommandIffItMatchesARow := by
  refine ⟨fun w r hr => matches_row_iff hr w, fun w r hr r' hr' => row_unique hr hr', no_row_iff_decode_error,
    fun w i h => ?_⟩
  have hWord := encode_of_decode h
  rcases decode_cases h with ⟨-, h⟩ | ⟨-, h⟩ | ⟨-, h⟩ | ⟨-, h⟩ | ⟨-, h⟩ | ⟨-, h⟩ | ⟨-, h⟩ | ⟨-, h⟩ | ⟨-, h⟩ |
    ⟨-, h⟩ | ⟨-, h⟩ <;>
    obtain ⟨-, -, -, rfl⟩ := checked_eq_ok.mp h
  · exact ⟨rfl, rfl⟩
  · exact hWord.symm
  · exact ⟨by simp [fieldA], rfl⟩
  · exact hWord.symm
  · exact hWord.symm
  · exact hWord.symm
  · rfl
  · rfl
  · exact ⟨rfl, rfl⟩
  · rfl
  · exact hWord.symm

/-- Settles O4: each of the twelve words is decoded. -/
theorem specWordsDecodeToTheirCommands : Obligations.SpecWordsDecodeToTheirCommands := by
  unfold Obligations.SpecWordsDecodeToTheirCommands
  decide

end Sys2Proof

namespace Sys2Proof.Machine

/-! ## An illegal word -/

/-- A presented word that matches no row is answered as an illegal word (rules R73, R81). -/
theorem present_of_no_row {w : CmdWord} (h : ∀ r ∈ opcodeRows, w &&& r.mask ≠ r.matchBits) (f : FloatIn) (s : State) :
    present w f s = .next (illegalWord (latch w f s)) := by
  obtain ⟨e, hError⟩ := (no_row_iff_decode_error w).mp h
  rw [present, hError]

/-- Settles O10: outside fault state an illegal word is fault entry with `E_ILLEGAL`. -/
theorem illegalWordRaisesEIllegalAndNothingElse : Obligations.IllegalWordRaisesEIllegalAndNothingElse := by
  refine ⟨fun w f s hReady hNone => ?_, by decide, by decide⟩
  rw [present_of_no_row hNone, illegalWord, unlessFaulted_of_ready (s := latch w f s) hReady, raise_eq_faultEntered,
    Cause.code, latch]

/-! ## `OSC.START` -/

/-- The tone pair of the alphabet's `j`-th symbol is the table's `j`-th entry (rules R76, R101). -/
theorem toneOf_alphabet {j : Fin 16} {sym : Byte} (h : RefHost.alphabet[j.val]? = some sym) (s : State) :
    toneOf sym s = some s.tones[j] := by
  rw [toneOf, symbolIndex_alphabet j sym h, Option.map_some]

/-- `OSC.START` of a code with no tone pair faults, whatever the rate (rule R103). -/
theorem exec_oscStart_of_no_tone {sym : Byte} {s : State} (hReady : s.fault = false) (hTone : toneOf sym s = none)
    (rate : Nat) : exec (.oscStart sym rate) s = .next (raise .invSym s) := by
  simp only [exec, execOscStart, unlessFaulted_of_ready hReady, hTone]

/-- `OSC.START` of a symbol with a tone pair faults at rate 0 (rule R103). -/
theorem exec_oscStart_of_rate_zero {sym : Byte} {p : TonePair} {s : State} (hReady : s.fault = false)
    (hTone : toneOf sym s = some p) : exec (.oscStart sym 0) s = .next (raise .badParam s) := by
  simp only [exec, execOscStart, unlessFaulted_of_ready hReady, hTone, if_true]

/-- Settles O15: a symbol and a rate above 0 begin an oscillator with the phases of two draws; each check that fails
is its own fault. -/
theorem oscStartCreatesAnInstanceOrFaults : Obligations.OscStartCreatesAnInstanceOrFaults := by
  refine ⟨fun j sym rate s hSym hRate hReady => ?_, fun sym rate s hSym hReady => ?_, fun sym s hSym hReady => ?_⟩
  · exact ⟨_, exec_oscStart_of_tone hReady (toneOf_alphabet hSym s) hRate.ne', rfl, rfl,
      Angle.toReal_twoPiTimes _, Angle.toReal_twoPiTimes _, rfl, rfl⟩
  · have hTone : toneOf sym s = none := by rw [toneOf, symbolIndex_none sym hSym, Option.map_none]
    rw [exec_oscStart_of_no_tone hReady hTone, raise_eq_faultEntered, Cause.code]
  · obtain ⟨p, hTone⟩ := toneOf_of_mem_alphabet hSym s
    rw [exec_oscStart_of_rate_zero hReady hTone, raise_eq_faultEntered, Cause.code]

end Sys2Proof.Machine
end

section
/-! Proofs. The oscillator: its sample as a real number and at index 0, `OSC.NEXT`, fault state along a run, and the
sequence of an oscillator's samples. -/

namespace Sys2Proof.Machine

/-! ## The sample -/

/-- The model's sample is the mean of the two real cosines (rule R102). -/
theorem toReal_oscSample (fLo fHi : Rat) (phiLo phiHi : Angle) (rate n : Nat) :
    Sample.toReal (oscSample fLo fHi phiLo phiHi rate n)
      = (Real.cos (2 * Real.pi * (fLo : ℝ) * ((n : ℝ) / (rate : ℝ)) + Angle.toReal phiLo)
        + Real.cos (2 * Real.pi * (fHi : ℝ) * ((n : ℝ) / (rate : ℝ)) + Angle.toReal phiHi)) / 2 := by
  have turn (f : Rat) : Angle.toReal (Angle.twoPiTimes (f * sampleTime rate n))
      = 2 * Real.pi * (f : ℝ) * ((n : ℝ) / (rate : ℝ)) := by
    rw [Angle.toReal_twoPiTimes, sampleTime]; push_cast; ring
  simp only [oscSample, Sample.toReal_half, Sample.toReal_add, Sample.toReal_cos, Angle.toReal_add, turn]

/-- The mean of two samples lies in every interval that both lie in. -/
theorem Sample.toReal_half_add_mem {x y : Sample} {l u : ℝ} (hx : Sample.toReal x ∈ Set.Icc l u)
    (hy : Sample.toReal y ∈ Set.Icc l u) : Sample.toReal (Sample.half (Sample.add x y)) ∈ Set.Icc l u := by
  rw [Sample.toReal_half, Sample.toReal_add]
  constructor <;> linarith [hx.1, hx.2, hy.1, hy.2]

/-- Settles O16: the sample is the mean of two cosines, each of them in [-1, 1]. -/
theorem oscSampleIsTheMeanOfTwoCosines : Obligations.OscSampleIsTheMeanOfTwoCosines := by
  intro fLo fHi phiLo phiHi rate n
  have range (a : Angle) : Sample.toReal (Sample.cos a) ∈ Set.Icc (-1 : ℝ) 1 :=
    ⟨Sample.neg_one_le_toReal_cos a, Sample.toReal_cos_le_one a⟩
  exact ⟨toReal_oscSample fLo fHi phiLo phiHi rate n, Sample.toReal_half_add_mem (range _) (range _)⟩

/-- The only angle of 0 radians is the one of 0 half turns. -/
theorem Angle.toReal_eq_zero_iff {a : Angle} : Angle.toReal a = 0 ↔ a = ⟨0⟩ := by
  rw [Angle.toReal, mul_eq_zero_iff_left Real.pi_ne_zero, Rat.cast_eq_zero, Angle.mk.injEq]

/-- The model's cosine of 0 is the number 1 itself, not only a sample that reads as 1 (rule R106 (c)). -/
theorem Sample.cos_zero : Sample.cos ⟨0⟩ = Sample.ofRat 1 := by
  have hWithin : Angle.withinTurn ⟨0⟩ = 0 := by simp [Angle.withinTurn, Rat.floor_def]
  simp [Sample.cos, hWithin, Sample.cosHalfTurn, Sample.cosFirstQuarter]

/-- The mean of a rational with itself is that rational. -/
theorem Sample.half_add_ofRat_self (q : Rat) :
    Sample.half (Sample.add (Sample.ofRat q) (Sample.ofRat q)) = Sample.ofRat q := by
  simp [Sample.half, Sample.scale, Sample.add, Sample.ofRat, ← two_mul]

/-- The sample at index 0 with both phases 0 is the number 1, whatever the frequencies and the rate (rule R106 (c)). -/
theorem oscSample_zero_phases (fLo fHi : Rat) (rate : Nat) : oscSample fLo fHi ⟨0⟩ ⟨0⟩ rate 0 = Sample.ofRat 1 := by
  have angle (f : Rat) : Angle.add (Angle.twoPiTimes (f * sampleTime rate 0)) ⟨0⟩ = ⟨0⟩ := by
    simp [Angle.add, Angle.twoPiTimes, sampleTime]
  rw [oscSample, angle, angle, Sample.cos_zero, Sample.half_add_ofRat_self]

/-! ## `OSC.NEXT` -/

/-- `OSC.NEXT` outside fault state on an oscillator whose index has not run out (rule R105). -/
theorem exec_oscNext_of_ready {s : State} {o : OscInst} (hReady : s.fault = false) (hOsc : s.osc = some o)
    (hIdx : o.n ≠ Config.idxLimit) :
    exec .oscNext s = .next (respondFloat (o.sampleAt o.n) { s with osc := some { o with n := o.n + 1 } }) := by
  simp only [exec, execOscNext, unlessFaulted_of_ready hReady, hOsc, if_neg hIdx]

/-- `OSC.NEXT` without an oscillator faults (rule R105). -/
theorem exec_oscNext_of_no_osc {s : State} (hReady : s.fault = false) (hOsc : s.osc = none) :
    exec .oscNext s = .next (raise .noInst s) := by
  simp only [exec, execOscNext, unlessFaulted_of_ready hReady, hOsc]

/-- `OSC.NEXT` with the index run out faults (rule R107). -/
theorem exec_oscNext_of_idxLimit {s : State} {o : OscInst} (hReady : s.fault = false) (hOsc : s.osc = some o)
    (hIdx : o.n = Config.idxLimit) : exec .oscNext s = .next (raise .idxOvf s) := by
  simp only [exec, execOscNext, unlessFaulted_of_ready hReady, hOsc, if_pos hIdx]

/-- Settles O17: the sample at the index, and a fault for each of the two checks. -/
theorem oscNextAnswersTheSampleAndAdvances : Obligations.OscNextAnswersTheSampleAndAdvances := by
  refine ⟨fun s o hReady hOsc hIdx => ?_, fun s hReady hOsc => ?_, fun s o hReady hOsc hIdx => ?_⟩
  · exact ⟨o.sampleAt o.n, exec_oscNext_of_ready hReady hOsc hIdx.ne, toReal_oscSample _ _ _ _ _ _⟩
  · rw [exec_oscNext_of_no_osc hReady hOsc, raise_eq_faultEntered, Cause.code]
  · rw [exec_oscNext_of_idxLimit hReady hOsc hIdx, raise_eq_faultEntered, Cause.code]

/-- Settles O19: the phases are the angle 0, so the answer is the sample of index 0 with zero phases. -/
theorem firstSampleWithZeroPhasesIsOne : Obligations.FirstSampleWithZeroPhasesIsOne := by
  intro s o hReady hOsc _ hFirst hLo hHi
  have hIdx : o.n ≠ Config.idxLimit := by rw [hFirst]; decide
  have hSample : o.sampleAt 0 = Sample.ofRat 1 := by
    rw [OscInst.sampleAt, Angle.toReal_eq_zero_iff.mp hLo, Angle.toReal_eq_zero_iff.mp hHi, oscSample_zero_phases]
  rw [exec_oscNext_of_ready hReady hOsc hIdx, hFirst, hSample]
  rfl

/-! ## Fault state along a run -/

/-- No command but `CLR` leaves fault state (rule R227). -/
theorem fault_of_exec {i : Instr} {s t : State} (h : exec i s = .next t) (hClr : i ≠ .clr) (hFault : s.fault = true) :
    t.fault = true := by
  obtain ⟨-, -, -, -, -, -, hRecord, -⟩ := onlyTheNamedCommandsWriteEachPieceOfState i s t h
  rcases hRecord with ⟨hSame, -⟩ | hIsClr | ⟨-, hEntered⟩
  · exact hSame.trans hFault
  · exact absurd hIsClr hClr
  · exact hEntered

/-- A run without `CLR` from fault state ends in fault state (rules R227, R261). -/
theorem fault_afterRun {cs : List Presented} (hClr : ∀ c ∈ cs, c.1 ≠ .clr) {s : State} (hFault : s.fault = true) :
    (afterRun cs s).fault = true := by
  induction cs generalizing s with
  | nil => exact hFault
  | cons c cs ih =>
    obtain ⟨hHead, hTail⟩ := List.forall_mem_cons.mp hClr
    exact ih hTail (fault_of_exec (exec_eq_afterCommand c s) hHead hFault)

/-! ## The samples of an oscillator -/

/-- A run's answers to a command that is the first of the run. -/
theorem responsesTo_transcript_cons_of_eq {i : Instr} {c : Presented} (h : c.1 = i) (cs : List Presented) (s : State) :
    responsesTo i (transcript (c :: cs) s)
      = (afterCommand c s).rsp :: responsesTo i (transcript cs (afterCommand c s)) := by
  simp [responsesTo, transcript, h]

/-- A run's answers to a command that is not the first of the run. -/
theorem responsesTo_transcript_cons_of_ne {i : Instr} {c : Presented} (h : c.1 ≠ i) (cs : List Presented) (s : State) :
    responsesTo i (transcript (c :: cs) s) = responsesTo i (transcript cs (afterCommand c s)) := by
  simp [responsesTo, transcript, h]

/-- An `OSC.NEXT` that leaves the block outside fault state answered the sample at the index and advanced it. -/
theorem oscNext_afterCommand {c : Presented} {s : State} {o : OscInst} (hNext : c.1 = .oscNext) (hOsc : s.osc = some o)
    (hReady : s.fault = false) (hStays : (afterCommand c s).fault = false) :
    (afterCommand c s).rsp = some ⟨stOk, o.sampleAt o.n, 0#32⟩ ∧
      (afterCommand c s).osc = some { o with n := o.n + 1 } := by
  have hExec := exec_eq_afterCommand c s
  rw [hNext] at hExec
  by_cases hIdx : o.n = Config.idxLimit
  · have hRaise := Host.Outcome.next.inj (hExec.symm.trans (exec_oscNext_of_idxLimit hReady hOsc hIdx))
    rw [hRaise, raise_fault] at hStays
    cases hStays
  · rw [Host.Outcome.next.inj (hExec.symm.trans (exec_oscNext_of_ready hReady hOsc hIdx))]
    exact ⟨rfl, rfl⟩

/-- A command that neither starts, discards nor advances an oscillator leaves it as it is (rule R106). -/
theorem osc_afterCommand_of_ne {c : Presented} (hKeeps : endsOscillator c.1 = false) (hNext : c.1 ≠ .oscNext)
    (s : State) : (afterCommand c s).osc = s.osc := by
  obtain ⟨hOsc, -⟩ := onlyTheNamedCommandsWriteEachPieceOfState _ _ _ (exec_eq_afterCommand c s)
  rcases hOsc with hSame | ⟨sym, rate, hStart⟩ | hIsNext | hClr
  · exact hSame
  · simp [hStart, endsOscillator] at hKeeps
  · exact absurd hIsNext hNext
  · simp [hClr, endsOscillator] at hKeeps

theorem ne_clr_of_endsOscillator {i : Instr} (h : endsOscillator i = false) : i ≠ .clr := by
  rintro rfl
  cases h

/-- The answers to `OSC.NEXT` from an oscillator at any index: the samples from that index on (rule R106 (b)). -/
theorem responsesTo_oscNext {cs : List Presented} {s : State} {o : OscInst} (hReady : s.fault = false)
    (hOsc : s.osc = some o) (hKeeps : ∀ c ∈ cs, endsOscillator c.1 = false) (hEnd : (afterRun cs s).fault = false) :
    responsesTo .oscNext (transcript cs s)
      = (List.range (cs.countP fun c => c.1 == .oscNext)).map fun j => some ⟨stOk, o.sampleAt (o.n + j), 0#32⟩ := by
  induction cs generalizing s o with
  | nil => rfl
  | cons c cs ih =>
    obtain ⟨hHead, hTail⟩ := List.forall_mem_cons.mp hKeeps
    have hStays : (afterCommand c s).fault = false := by
      refine Bool.eq_false_iff.mpr fun hFault => Bool.false_ne_true (hEnd.symm.trans ?_)
      exact fault_afterRun (fun d hd => ne_clr_of_endsOscillator (hTail d hd)) hFault
    by_cases hNext : c.1 = .oscNext
    · obtain ⟨hRsp, hAdvanced⟩ := oscNext_afterCommand hNext hOsc hReady hStays
      rw [responsesTo_transcript_cons_of_eq hNext, hRsp, ih hStays hAdvanced hTail hEnd,
        List.countP_cons_of_pos (by simp [hNext]), List.range_succ_eq_map, List.map_cons, List.map_map]
      refine congrArg _ (List.map_congr_left fun j _ => ?_)
      rw [Function.comp_apply, Nat.succ_eq_one_add, ← Nat.add_assoc]
      rfl
    · rw [responsesTo_transcript_cons_of_ne hNext, List.countP_cons_of_neg (by simp [hNext])]
      exact ih hStays ((osc_afterCommand_of_ne hHead hNext s).trans hOsc) hTail hEnd

/-- Settles O18: the samples of a fresh oscillator are those from index 0 on. -/
theorem theJthOscNextAnswersTheJthSample : Obligations.TheJthOscNextAnswersTheJthSample := by
  intro cs s o hReady hOsc hFresh hKeeps hEnd
  rw [responsesTo_oscNext hReady hOsc hKeeps hEnd, hFresh]
  simp only [Nat.zero_add, stOk]

end Sys2Proof.Machine
end

section
/-! Proofs. The envelope: its two ramps and its gain, `ENV.START`, `ENV.NEXT`, and the sequence of an envelope's
gains. -/

namespace Sys2Proof.Machine

/-! ## The two ramps -/

/-- The cosine of both ramps as a real number (rule R122). -/
theorem toReal_cos_ramp (d k : Nat) :
    Sample.toReal (Sample.cos (Angle.piTimes ((k : Rat) / (d : Rat))))
      = Real.cos (Real.pi * (k : ℝ) / (d : ℝ)) := by
  rw [Sample.toReal_cos, Angle.toReal_piTimes, mul_div_assoc]
  push_cast
  rfl

/-- The attack ramp as a real number (rule R122). -/
theorem toReal_attack (ron k : Nat) :
    Sample.toReal (attack ron k) = (Real.cos (Real.pi * (k : ℝ) / (ron : ℝ)) - 1) / 2 := by
  rw [attack, Sample.toReal_half, Sample.toReal_add, toReal_cos_ramp, Sample.toReal_ofRat]
  push_cast
  rw [← sub_eq_add_neg]

/-- The release ramp as a real number (rule R122). -/
theorem toReal_release (d j : Nat) :
    Sample.toReal (release d j) = (Real.cos (Real.pi * (j : ℝ) / (d : ℝ)) + 1) / 2 := by
  rw [release, Sample.toReal_half, Sample.toReal_add, toReal_cos_ramp, Sample.toReal_ofRat, Rat.cast_one]

/-- The cosine of a ramp falls with the index all through its half turn. -/
theorem cos_ramp_lt {d k k' : Nat} (h : k < k') (hd : k' ≤ d) :
    Real.cos (Real.pi * (k' : ℝ) / (d : ℝ)) < Real.cos (Real.pi * (k : ℝ) / (d : ℝ)) := by
  have hPos : (0 : ℝ) < d := by exact_mod_cast Nat.zero_lt_of_lt (h.trans_le hd)
  have hLt : (k : ℝ) < k' := by exact_mod_cast h
  have hLe : (k' : ℝ) ≤ d := by exact_mod_cast hd
  apply Real.cos_lt_cos_of_nonneg_of_le_pi
  · positivity
  · rw [div_le_iff₀ hPos]
    exact mul_le_mul_of_nonneg_left hLe Real.pi_pos.le
  · exact div_lt_div_of_pos_right (mul_lt_mul_of_pos_left hLt Real.pi_pos) hPos

/-- The attack ramp falls strictly (rule R122). -/
theorem toReal_attack_lt {ron k k' : Nat} (h : k < k') (hRon : k' ≤ ron) :
    Sample.toReal (attack ron k') < Sample.toReal (attack ron k) := by
  rw [toReal_attack, toReal_attack]
  linarith [cos_ramp_lt h hRon]

theorem toReal_attack_nonpos (ron k : Nat) : Sample.toReal (attack ron k) ≤ 0 := by
  rw [toReal_attack]
  linarith [Real.cos_le_one (Real.pi * (k : ℝ) / (ron : ℝ))]

/-- The attack ramp would end at -1, which it does not reach in its range (rule R122). -/
theorem neg_one_lt_toReal_attack {ron k : Nat} (h : k < ron) : -1 < Sample.toReal (attack ron k) := by
  have hEnd : Sample.toReal (attack ron ron) = -1 := by
    have hPos : (ron : ℝ) ≠ 0 := by exact_mod_cast Nat.ne_zero_of_lt h
    rw [toReal_attack, mul_div_cancel_right₀ _ hPos, Real.cos_pi]
    norm_num
  exact hEnd ▸ toReal_attack_lt h le_rfl

/-- The release ramp is in [0, 1] (rule R122). -/
theorem toReal_release_mem (d j : Nat) : Sample.toReal (release d j) ∈ Set.Icc (0 : ℝ) 1 := by
  have hLo := Real.neg_one_le_cos (Real.pi * (j : ℝ) / (d : ℝ))
  have hHi := Real.cos_le_one (Real.pi * (j : ℝ) / (d : ℝ))
  rw [toReal_release]
  constructor <;> linarith

/-- Half the sum of two rationals, as data. -/
theorem Sample.half_add_ofRat (p q : Rat) :
    Sample.half (Sample.add (Sample.ofRat p) (Sample.ofRat q)) = Sample.ofRat (1 / 2 * (p + q)) := rfl

/-- The model's cosine of π is the number -1 itself. -/
theorem Sample.cos_pi : Sample.cos ⟨1⟩ = Sample.ofRat (-1) := by
  have hWithin : Angle.withinTurn ⟨1⟩ = 1 := by norm_num [Angle.withinTurn, Rat.floor_def]
  have hFlip : ¬(1 : Rat) ≤ 1 / 2 := by norm_num
  rw [Sample.cos, hWithin, if_pos le_rfl, Sample.cosHalfTurn, if_neg hFlip, sub_self, Sample.cosFirstQuarter,
    if_pos rfl]
  simp [Sample.scale, Sample.ofRat]

theorem attack_zero (ron : Nat) : attack ron 0 = Sample.ofRat 0 := by
  rw [attack, Nat.cast_zero, zero_div, Angle.piTimes, Sample.cos_zero, Sample.half_add_ofRat]
  norm_num

theorem release_zero (d : Nat) : release d 0 = Sample.ofRat 1 := by
  rw [release, Nat.cast_zero, zero_div, Angle.piTimes, Sample.cos_zero, Sample.half_add_ofRat_self]

theorem release_self {d : Nat} (h : 0 < d) : release d d = Sample.ofRat 0 := by
  have hPos : (d : Rat) ≠ 0 := by exact_mod_cast h.ne'
  rw [release, div_self hPos, Angle.piTimes, Sample.cos_pi, Sample.half_add_ofRat]
  norm_num

/-- Settles O22: the ramps are the real formulas, and the cosine falls through the half turn. -/
theorem theTwoRampsHaveTheirValues : Obligations.TheTwoRampsHaveTheirValues :=
  ⟨fun ron k h => ⟨toReal_attack ron k, neg_one_lt_toReal_attack h, toReal_attack_nonpos ron k⟩,
    fun _ _ _ h hRon => toReal_attack_lt h hRon.le,
    fun ron _ => attack_zero ron,
    fun d j _ => ⟨toReal_release d j, toReal_release_mem d j⟩,
    fun d _ => release_zero d,
    fun _ hd => release_self hd⟩

/-! ## The gain -/

/-- The attack span (rule R123). -/
theorem gain_of_attack {e : EnvInst} {k : Nat} (h : k < e.ron) : gain e k = attack e.ron k := if_pos h

/-- The release span (rule R123). -/
theorem gain_of_release {e : EnvInst} {k : Nat} (hRon : e.ron ≤ k) (hRoff : e.total ≤ k + e.roff) :
    gain e k = release e.d (k + e.roff - e.total) := by
  rw [gain, if_neg hRon.not_gt, if_pos hRoff]

/-- The plateau (rule R123). -/
theorem gain_of_plateau {e : EnvInst} {k : Nat} (hRon : e.ron ≤ k) (hRoff : k + e.roff < e.total) :
    gain e k = Sample.ofRat 1 := by
  rw [gain, if_neg hRon.not_gt, if_neg hRoff.not_ge]

/-- Settles O23: the three spans are the branches of the gain. -/
theorem theGainFollowsTheThreeSpans : Obligations.TheGainFollowsTheThreeSpans := by
  refine ⟨fun e k _ => ⟨gain_of_attack, fun hRon hRoff => ?_, gain_of_plateau⟩,
    fun e hFits => ⟨fun k => gain_of_attack, fun k hRon hk => gain_of_plateau hRon (by omega), fun j hj => ?_⟩,
    fun e k hAll hk => gain_of_attack (by omega)⟩
  · exact ⟨k + e.roff - e.total, by omega, gain_of_release hRon hRoff⟩
  · rw [gain_of_release (by omega) (by omega)]
    congr 1
    omega

/-- In an instance that meets the invariant the release span has a divisor above 0 (rule R129). -/
theorem EnvInst.Wf.divisor_ne_zero {e : EnvInst} (h : e.Wf) {k : Nat} (hk : k < e.total)
    (hRoff : e.total ≤ k + e.roff) : e.d ≠ 0 := by
  obtain ⟨-, -, -, -, -, hDivisor⟩ := h
  exact fun hZero => hDivisor ⟨by omega, by omega, hZero⟩

/-- Settles O27: a gain is a value of one of the ramps, or the plateau's 1. -/
theorem everyGainIsBetweenMinusOneAndOne : Obligations.EveryGainIsBetweenMinusOneAndOne := by
  refine fun e k _ _ => ⟨fun hRon => ?_, fun hRon => ?_⟩
  · rw [gain_of_attack hRon]
    exact ⟨neg_one_lt_toReal_attack hRon, toReal_attack_nonpos _ _⟩
  · rcases le_or_gt e.total (k + e.roff) with hRoff | hRoff
    · rw [gain_of_release hRon hRoff]
      exact toReal_release_mem _ _
    · rw [gain_of_plateau hRon hRoff, Sample.toReal_ofRat]
      norm_num

/-- At the index where the attack span ends the gain is 1 if the release span has not begun before it, whether that
index is the first of the plateau or the first of the release (rule R127 (e)). -/
theorem gain_of_ron {e : EnvInst} (hFits : e.ron + e.roff ≤ e.total) : gain e e.ron = Sample.ofRat 1 := by
  rcases hFits.eq_or_lt with hMeet | hApart
  · rw [gain_of_release le_rfl hMeet.ge, hMeet, Nat.sub_self, release_zero]
  · exact gain_of_plateau le_rfl hApart

/-- At the index where the release span begins the gain is 1 (rule R127 (e)). -/
theorem gain_of_total_sub_roff {e : EnvInst} (hFits : e.ron + e.roff ≤ e.total) :
    gain e (e.total - e.roff) = Sample.ofRat 1 := by
  have hBegin : e.total - e.roff + e.roff = e.total := by omega
  rw [gain_of_release (by omega) hBegin.ge, hBegin, Nat.sub_self, release_zero]

/-- Settles O28: index 0 is the first of the attack span, and the two others are the ends of the plateau. -/
theorem gainAtTheSpanEnds : Obligations.GainAtTheSpanEnds := by
  intro r n k hr hn e
  have hFits : e.ron + e.roff ≤ e.total := by simp only [e]; omega
  exact ⟨(gain_of_attack hr).trans (attack_zero r), gain_of_ron hFits, gain_of_total_sub_roff hFits⟩

/-- The divisor is read in the release span alone (rule R128). -/
theorem gain_withDivisor {e : EnvInst} {k : Nat} (h : k < e.ron ∨ k + e.roff < e.total) (d : Nat) :
    gain { e with d := d } k = gain e k := by
  rcases lt_or_ge k e.ron with hRon | hRon
  · rw [gain_of_attack hRon]
    exact gain_of_attack hRon
  · have hRoff : k + e.roff < e.total := h.resolve_left hRon.not_gt
    rw [gain_of_plateau hRon hRoff]
    exact gain_of_plateau hRon hRoff

/-! ## `ENV.START` -/

/-- What `ENV.START` refuses: a release ramp, in an envelope that is not empty, with divisor 0 (rule R129). -/
abbrev ZeroDivisor (uo : Bool) (n : Nat) (s : State) : Prop := 0 < n ∧ 0 < rollOff uo s ∧ releaseDivisor uo s = 0

/-- `ENV.START` without a zero divisor, outside fault state (rule R121). -/
theorem exec_envStart_of_ready {uo : Bool} {n : Nat} {s : State} (hReady : s.fault = false)
    (hDivisor : ¬ZeroDivisor uo n s) :
    exec (.envStart uo n) s = .next (respondOk { s with env := some (envCreate uo n s) }) := by
  rw [exec, execEnvStart, unlessFaulted_of_ready hReady, if_neg hDivisor]

/-- `ENV.START` with a zero divisor faults (rule R129). -/
theorem exec_envStart_of_zeroDivisor {uo : Bool} {n : Nat} {s : State} (hReady : s.fault = false)
    (hDivisor : ZeroDivisor uo n s) : exec (.envStart uo n) s = .next (raise .badParam s) := by
  rw [exec, execEnvStart, unlessFaulted_of_ready hReady, if_pos hDivisor]

/-- Settles O20: the roll lengths and the divisor of the statement are those of `envCreate`. -/
theorem envStartLatchesTheRollLengths : Obligations.EnvStartLatchesTheRollLengths :=
  fun _ _ _ hReady => ⟨exec_envStart_of_zeroDivisor hReady, exec_envStart_of_ready hReady⟩

/-- In corrected mode the divisor is the roll-off length (rule R128). -/
theorem releaseDivisor_of_corrected {s : State} (h : s.ctrl.getLsbD 0 = true) (uo : Bool) :
    releaseDivisor uo s = rollOff uo s := if_pos h

/-- In reference mode the divisor is the roll-on length (rule R121). -/
theorem releaseDivisor_of_reference {s : State} (h : s.ctrl.getLsbD 0 = false) (uo : Bool) :
    releaseDivisor uo s = s.ron.toNat := if_neg (Bool.not_eq_true _ ▸ h)

/-- With equal roll lengths the mode does not matter (rule R128). -/
theorem releaseDivisor_of_equal {uo : Bool} {s : State} (h : rollOff uo s = s.ron.toNat) :
    releaseDivisor uo s = s.ron.toNat := by
  cases hMode : s.ctrl.getLsbD 0 with
  | true => rw [releaseDivisor_of_corrected hMode, h]
  | false => exact releaseDivisor_of_reference hMode uo

/-- A register reads as the number 0 only when it is the word 0. -/
theorem toNat_word32_eq_zero {v : Word32} : v.toNat = 0 ↔ v = 0#32 := BitVec.toNat_inj (y := 0#32)

/-- A zero divisor takes reference mode, `RON = 0`, and a release ramp to divide (rule R129). -/
theorem zeroDivisor_iff {uo : Bool} {n : Nat} {s : State} :
    ZeroDivisor uo n s ↔ ¬(s.ctrl.getLsbD 0 = true ∨ s.ron ≠ 0#32 ∨ rollOff uo s = 0 ∨ n = 0) := by
  cases hMode : s.ctrl.getLsbD 0 with
  | true =>
    rw [ZeroDivisor, releaseDivisor_of_corrected hMode]
    simp only [true_or, not_true, iff_false]
    omega
  | false =>
    rw [ZeroDivisor, releaseDivisor_of_reference hMode, Ne, ← toNat_word32_eq_zero]
    simp only [Bool.false_eq_true, false_or]
    omega

/-- Rule R129's condition in the registers: the roll-off length differs from `RON` with `UO = 1` only. -/
theorem zeroDivisor_iff_registers {uo : Bool} {n : Nat} {s : State} :
    ZeroDivisor uo n s ↔ 0 < n ∧ uo = true ∧ s.ctrl.getLsbD 0 = false ∧ s.ron = 0#32 ∧ s.roff ≠ 0#32 := by
  rw [zeroDivisor_iff]
  cases uo with
  | true =>
    have hRoff : rollOff true s = 0 ↔ s.roff = 0#32 := toNat_word32_eq_zero
    rw [hRoff, Nat.pos_iff_ne_zero]
    simp only [not_or, Bool.not_eq_true, not_not, true_and]
    tauto
  | false =>
    have hRoff : rollOff false s = 0 ↔ s.ron = 0#32 := toNat_word32_eq_zero
    rw [hRoff]
    simp only [not_or, Bool.not_eq_true, not_not, Bool.false_eq_true, false_and, and_false, iff_false]
    tauto

/-- Settles O21: the fault is taken on a zero divisor alone, and the invariant excludes one in an instance. -/
theorem envStartFaultsExactlyOnAZeroDivisor : Obligations.EnvStartFaultsExactlyOnAZeroDivisor := by
  refine ⟨fun uo n s hReady => ?_, fun e k hWf hk => ⟨fun hRon => Nat.ne_zero_of_lt hRon, fun _ hRoff =>
    hWf.divisor_ne_zero hk hRoff⟩⟩
  rw [← zeroDivisor_iff_registers]
  refine ⟨fun hFaults => ?_, exec_envStart_of_zeroDivisor hReady⟩
  by_contra hDivisor
  have hSame := Host.Outcome.next.inj ((exec_envStart_of_ready hReady hDivisor).symm.trans hFaults)
  exact Bool.false_ne_true (hReady.symm.trans (congrArg State.fault hSame))

/-- `ENV.START` under another value of `CTRL` (rule R128). -/
theorem exec_envStart_withCtrl {uo : Bool} {n : Nat} {s : State} {c : Word32} (hReady : s.fault = false)
    (h : c.getLsbD 0 = true ∨ s.ron ≠ 0#32 ∨ rollOff uo s = 0 ∨ n = 0) :
    exec (.envStart uo n) { s with ctrl := c }
      = .next (respondOk { s with ctrl := c, env := some (envCreate uo n { s with ctrl := c }) }) :=
  exec_envStart_of_ready (s := { s with ctrl := c }) hReady fun hZero => zeroDivisor_iff.mp hZero h

/-- Settles O29: the mode is read by `releaseDivisor` alone, and with equal roll lengths not even there. -/
theorem correctedModeChangesOnlyTheDivisor : Obligations.CorrectedModeChangesOnlyTheDivisor := by
  refine ⟨fun uo n s hReady hMode => ?_, ?_, fun uo n s c c' hReady hRoll => ?_,
    fun e d k h => gain_withDivisor h d⟩
  · have hDivisor : ¬ZeroDivisor uo n s := fun h => zeroDivisor_iff.mp h (.inl hMode)
    exact ⟨_, _, exec_envStart_of_ready hReady hDivisor, rfl, releaseDivisor_of_corrected hMode uo, rfl, rfl,
      rfl, rfl⟩
  · intro uo n s c c' hReady roff hc hc'
    exact ⟨_, _, exec_envStart_withCtrl hReady hc, exec_envStart_withCtrl hReady hc',
      fun h => releaseDivisor_of_corrected h uo, fun h => releaseDivisor_of_reference h uo,
      fun h => releaseDivisor_of_corrected h uo, fun h => releaseDivisor_of_reference h uo⟩
  · have hEqual : rollOff uo s = s.ron.toNat := by
      cases uo with
      | true => exact congrArg BitVec.toNat (hRoll rfl)
      | false => rfl
    have hCreates (x : Word32) : x.getLsbD 0 = true ∨ s.ron ≠ 0#32 ∨ rollOff uo s = 0 ∨ n = 0 := by
      rw [hEqual, toNat_word32_eq_zero]
      tauto
    have hDivisor (x : Word32) : releaseDivisor uo { s with ctrl := x } = s.ron.toNat :=
      releaseDivisor_of_equal (s := { s with ctrl := x }) hEqual
    have hInstance : envCreate uo n { s with ctrl := c } = envCreate uo n { s with ctrl := c' } := by
      rw [envCreate, envCreate, hDivisor, hDivisor]
      rfl
    exact ⟨_, _, exec_envStart_withCtrl hReady (hCreates c), exec_envStart_withCtrl hReady (hCreates c'),
      congrArg some hInstance, rfl, Option.some_ne_none _⟩

/-! ## `ENV.NEXT` -/

/-- `ENV.NEXT` outside fault state on an envelope not at its end (rule R125). -/
theorem exec_envNext_of_ready {s : State} {e : EnvInst} (hReady : s.fault = false) (hEnv : s.env = some e)
    (hIdx : e.k ≠ e.total) :
    exec .envNext s = .next (respondFloat (gain e e.k) { s with env := some { e with k := e.k + 1 } }) := by
  simp only [exec, execEnvNext, unlessFaulted_of_ready hReady, hEnv, if_neg hIdx]

/-- `ENV.NEXT` outside fault state on an envelope at its end (rule R126). -/
theorem exec_envNext_of_end {s : State} {e : EnvInst} (hReady : s.fault = false) (hEnv : s.env = some e)
    (hIdx : e.k = e.total) : exec .envNext s = .next (respondBare stEnd s) := by
  simp only [exec, execEnvNext, unlessFaulted_of_ready hReady, hEnv, if_pos hIdx]

/-- `ENV.NEXT` without an envelope faults (rule R125). -/
theorem exec_envNext_of_no_env {s : State} (hReady : s.fault = false) (hEnv : s.env = none) :
    exec .envNext s = .next (raise .noInst s) := by
  simp only [exec, execEnvNext, unlessFaulted_of_ready hReady, hEnv]

/-- Settles O24: the gain at the index, the end, and the one fault. -/
theorem envNextAnswersTheGainAndAdvances : Obligations.EnvNextAnswersTheGainAndAdvances :=
  ⟨fun _ _ hReady hEnv hIdx => exec_envNext_of_ready hReady hEnv hIdx.ne,
    fun _ _ => exec_envNext_of_end,
    fun _ => exec_envNext_of_no_env⟩

/-- At the end a presented `ENV.NEXT` changes the ports alone (rule R126). -/
theorem envNext_afterCommand_of_end {f : FloatIn} {s : State} {e : EnvInst} (hReady : s.fault = false)
    (hEnv : s.env = some e) (hIdx : e.k = e.total) :
    afterCommand (.envNext, f) s = respondBare stEnd (latch (encode .envNext) f s) :=
  afterCommand_of_exec (exec_envNext_of_end (s := latch (encode .envNext) f s) hReady hEnv hIdx)

/-- At the end any number of `ENV.NEXT` answer `END` and change the ports alone (rule R126). -/
theorem envNext_replicate_of_end (m : Nat) (f : FloatIn) {s : State} {e : EnvInst} (hReady : s.fault = false)
    (hEnv : s.env = some e) (hIdx : e.k = e.total) :
    (∀ p ∈ transcript (List.replicate m (.envNext, f)) s, p.2 = some ⟨stEnd, Sample.ofRat 0, 0#32⟩) ∧
      ∃ w x r, afterRun (List.replicate m (.envNext, f)) s = { s with cmd := w, fin := x, rsp := r } := by
  induction m generalizing s with
  | zero => exact ⟨nofun, _, _, _, rfl⟩
  | succ m ih =>
    have hStep := envNext_afterCommand_of_end (f := f) hReady hEnv hIdx
    obtain ⟨hEnd, w, x, r, hRun⟩ := ih (s := afterCommand (.envNext, f) s) (hStep ▸ hReady) (hStep ▸ hEnv)
    rw [List.replicate_succ, transcript, afterRun]
    refine ⟨List.forall_mem_cons.mpr ⟨?_, hEnd⟩, w, x, r, ?_⟩
    · rw [hStep]
      rfl
    · rw [hRun, hStep]
      rfl

/-- No command takes an envelope's index past its count (rule R126). -/
theorem env_index_le_of_exec {i : Instr} {s t : State} (hIdx : ∀ e, s.env = some e → e.k ≤ e.total)
    (h : exec i s = .next t) : ∀ e, t.env = some e → e.k ≤ e.total := by
  have same (hSame : t.env = s.env) : ∀ e, t.env = some e → e.k ≤ e.total := hSame ▸ hIdx
  obtain ⟨-, hEnv, -⟩ := onlyTheNamedCommandsWriteEachPieceOfState i s t h
  rcases hEnv with hSame | ⟨uo, n, rfl⟩ | rfl | rfl
  · exact same hSame
  · rcases exec_inv h with ⟨-, rfl⟩ | ⟨-, c, rfl⟩ | ⟨-, -, rfl⟩
    · exact same rfl
    · exact same rfl
    · rintro _ ⟨⟩
      exact Nat.zero_le n
  · rcases exec_inv h with ⟨-, rfl⟩ | ⟨-, c, rfl⟩ | ⟨-, e, hEnv, ⟨-, rfl⟩ | ⟨hBelow, rfl⟩⟩
    · exact same rfl
    · exact same rfl
    · exact same rfl
    · rintro _ ⟨⟩
      exact lt_of_le_of_ne (hIdx e hEnv) hBelow
  · obtain rfl : t = respondOk (returnFromFault s) := (Host.Outcome.next.inj h).symm
    exact nofun

/-- Settles O25: the repeated `END`, and the bound command by command. -/
theorem endRepeatsAndChangesNothing : Obligations.EndRepeatsAndChangesNothing := by
  refine ⟨fun m f s e hReady hEnv hIdx => ?_, fun _ _ _ => env_index_le_of_exec⟩
  obtain ⟨hEnd, w, x, r, hRun⟩ := envNext_replicate_of_end m f hReady hEnv hIdx
  exact ⟨hEnd, by rw [hRun]⟩

/-! ## The gains of an envelope -/

/-- What the pull at index `j` answers: the gain below the count, `END` from there on (rule R127). -/
def EnvInst.answerAt (e : EnvInst) (j : Nat) : Response :=
  if j < e.total then ⟨stOk, gain e j, 0#32⟩ else ⟨stEnd, Sample.ofRat 0, 0#32⟩

/-- The envelope after one pull: one index further, but not past its count (rules R125, R126). -/
def EnvInst.pulled (e : EnvInst) : EnvInst := { e with k := min (e.k + 1) e.total }

/-- The pulls after the first answer what they answer counted from the index before it. -/
theorem EnvInst.answerAt_pulled {e : EnvInst} (hIdx : e.k ≤ e.total) (j : Nat) :
    e.pulled.answerAt (e.pulled.k + j) = e.answerAt (e.k + (j + 1)) := by
  rcases hIdx.eq_or_lt with hEnd | hBelow
  · have hPulled : e.pulled.k = e.total := by simp only [EnvInst.pulled]; omega
    rw [EnvInst.answerAt, EnvInst.answerAt, if_neg (by rw [hPulled]; simp [EnvInst.pulled]), if_neg (by omega)]
  · have hPulled : e.pulled.k + j = e.k + (j + 1) := by simp only [EnvInst.pulled]; omega
    rw [hPulled]
    rfl

/-- `ENV.NEXT` outside fault state on an envelope in its range, at its end or not (rules R125, R126). -/
theorem envNext_afterCommand {c : Presented} {s : State} {e : EnvInst} (hNext : c.1 = .envNext)
    (hReady : s.fault = false) (hEnv : s.env = some e) (hIdx : e.k ≤ e.total) :
    (afterCommand c s).rsp = some (e.answerAt e.k) ∧ (afterCommand c s).env = some e.pulled := by
  obtain ⟨i, f⟩ := c
  obtain rfl : i = .envNext := hNext
  rcases hIdx.eq_or_lt with hEnd | hBelow
  · have hIdxStays : min (e.k + 1) e.total = e.k := by omega
    have hPulled : e.pulled = e := by rw [EnvInst.pulled, hIdxStays]
    rw [envNext_afterCommand_of_end hReady hEnv hEnd, hPulled, EnvInst.answerAt, if_neg (by omega)]
    exact ⟨rfl, hEnv⟩
  · rw [afterCommand_of_exec (exec_envNext_of_ready (s := latch (encode .envNext) f s) hReady hEnv hBelow.ne),
      EnvInst.pulled, Nat.min_eq_left hBelow, EnvInst.answerAt, if_pos hBelow]
    exact ⟨rfl, rfl⟩

/-- A command that neither starts, discards nor pulls an envelope leaves it as it is (rule R127). -/
theorem env_afterCommand_of_ne {c : Presented} (hKeeps : endsEnvelope c.1 = false) (hNext : c.1 ≠ .envNext)
    (s : State) : (afterCommand c s).env = s.env := by
  obtain ⟨-, hEnv, -⟩ := onlyTheNamedCommandsWriteEachPieceOfState _ _ _ (exec_eq_afterCommand c s)
  rcases hEnv with hSame | ⟨uo, n, hStart⟩ | hIsNext | hClr
  · exact hSame
  · simp [hStart, endsEnvelope] at hKeeps
  · exact absurd hIsNext hNext
  · simp [hClr, endsEnvelope] at hKeeps

theorem ne_clr_of_endsEnvelope {i : Instr} (h : endsEnvelope i = false) : i ≠ .clr := by
  rintro rfl
  cases h

/-- A run without `CLR` that ends outside fault state began outside it (rule R227). -/
theorem ready_of_afterRun {cs : List Presented} (hClr : ∀ c ∈ cs, c.1 ≠ .clr) {s : State}
    (hEnd : (afterRun cs s).fault = false) : s.fault = false :=
  Bool.eq_false_iff.mpr fun hFault => Bool.false_ne_true (hEnd.symm.trans (fault_afterRun hClr hFault))

/-- The answers to `ENV.NEXT` from an envelope at any index: those from that index on (rule R127 (a), (b)). -/
theorem responsesTo_envNext {cs : List Presented} {s : State} {e : EnvInst} (hReady : s.fault = false)
    (hEnv : s.env = some e) (hIdx : e.k ≤ e.total) (hKeeps : ∀ c ∈ cs, endsEnvelope c.1 = false)
    (hEnd : (afterRun cs s).fault = false) :
    responsesTo .envNext (transcript cs s)
      = (List.range (cs.countP fun c => c.1 == .envNext)).map fun j => some (e.answerAt (e.k + j)) := by
  induction cs generalizing s e with
  | nil => rfl
  | cons c cs ih =>
    obtain ⟨hHead, hTail⟩ := List.forall_mem_cons.mp hKeeps
    have hStays : (afterCommand c s).fault = false :=
      ready_of_afterRun (fun d hd => ne_clr_of_endsEnvelope (hTail d hd)) hEnd
    by_cases hNext : c.1 = .envNext
    · obtain ⟨hRsp, hPulled⟩ := envNext_afterCommand hNext hReady hEnv hIdx
      rw [responsesTo_transcript_cons_of_eq hNext, hRsp, ih hStays hPulled (Nat.min_le_right _ _) hTail hEnd,
        List.countP_cons_of_pos (by simp [hNext]), List.range_succ_eq_map, List.map_cons, List.map_map]
      exact congrArg _ (List.map_congr_left fun j _ => congrArg some (e.answerAt_pulled hIdx j))
    · rw [responsesTo_transcript_cons_of_ne hNext, List.countP_cons_of_neg (by simp [hNext])]
      exact ih hStays ((env_afterCommand_of_ne hHead hNext s).trans hEnv) hIdx hTail hEnd

/-- Settles O26: the answers of a fresh envelope are those from index 0 on. -/
theorem anEnvelopeYieldsExactlyNGains : Obligations.AnEnvelopeYieldsExactlyNGains := by
  intro cs s e hReady hEnv hFresh hKeeps hEnd
  rw [responsesTo_envNext hReady hEnv (by omega) hKeeps hEnd, hFresh]
  simp only [Nat.zero_add, EnvInst.answerAt, apply_ite some, stOk, stEnd]

end Sys2Proof.Machine
end

section
/-! Proofs. The Noise Source and the random source, and what the initialisation of the block determines. -/

namespace Sys2Proof.Machine

/-! ## One draw -/

/-- The next unit draw read as a real number is in [0, 1) (rule R141). -/
theorem drawnUnit_toReal_mem (s : State) : (drawnUnit s : ℝ) ∈ Set.Ico (0 : ℝ) 1 :=
  ⟨by exact_mod_cast rngUnit_nonneg s.rng, by exact_mod_cast rngUnit_lt_one s.rng⟩

/-- A noise sample read as a real number (rule R142). -/
theorem toReal_noiseOf (u : Rat) : Sample.toReal (Sample.ofRat (noiseOf u)) = 2 * (u : ℝ) - 1 := by
  rw [Sample.toReal_ofRat, noiseOf]
  push_cast
  rfl

/-- Settles O30: the draw is in [0, 1), and the noise map takes that to [−1, 1). -/
theorem nseNextAnswersOneAffineDraw : Obligations.NseNextAnswersOneAffineDraw := by
  intro s hReady
  obtain ⟨hLo, hHi⟩ := drawnUnit_toReal_mem s
  have hValue := toReal_noiseOf (drawnUnit s)
  exact ⟨_, exec_nseNext_of_ready hReady, hValue, by linarith, by linarith⟩

/-- Settles O31: the answer is the draw itself. -/
theorem rngDrawAnswersTheUnitDraw : Obligations.RngDrawAnswersTheUnitDraw := by
  intro s hReady
  have hValue := Sample.toReal_ofRat (drawnUnit s)
  exact ⟨_, exec_rngDraw_of_ready hReady, hValue, hValue ▸ drawnUnit_toReal_mem s⟩

/-! ## The seed -/

/-- `RNG.SEED` outside fault state (rule R145). -/
theorem exec_rngSeed_of_ready (seed : Word32) {s : State} (hReady : s.fault = false) :
    exec (.rngSeed seed) s = .next (respondOk { s with rng := Config.rngSeed seed }) := by
  rw [exec, execRngSeed, unlessFaulted_of_ready hReady]

/-- Settles O32: outside fault state the seed's command is its one write and a bare `OK`. -/
theorem rngSeedSetsTheRandomSource : Obligations.RngSeedSetsTheRandomSource :=
  fun seed _ hReady => exec_rngSeed_of_ready seed hReady

/-- Settles O33: the seed sets the random source, and the run advances it by its draws. -/
theorem drawsAreCountedByTheCommandsThatSucceed : Obligations.DrawsAreCountedByTheCommandsThatSucceed := by
  intro cs seed f s hReady hSeed s1
  have hSeeded : s1.rng = Config.rngSeed seed := by
    rw [show s1 = _ from afterCommand_of_exec (exec_rngSeed_of_ready seed hReady), respondOk_eq, respond_rng]
  rw [rng_afterRun hSeed s1, hSeeded]

/-! ## The model's own fields

No command reads or writes what the host will still do or the count of resets, so every command commutes with
`State.block`. -/

@[simp] theorem State.block_osc (s : State) : s.block.osc = s.osc := rfl
@[simp] theorem State.block_env (s : State) : s.block.env = s.env := rfl
@[simp] theorem State.block_fin (s : State) : s.block.fin = s.fin := rfl
@[simp] theorem State.block_rsp (s : State) : s.block.rsp = s.rsp := rfl
@[simp] theorem toneOf_block (sym : Byte) (s : State) : toneOf sym s.block = toneOf sym s := rfl

/-- A choice between two bodies commutes with `State.block` when both bodies do. -/
theorem ite_eq_block {p : Prop} [Decidable p] {b b' u u' : State} (hThen : b' = b.block) (hElse : u' = u.block) :
    (if p then b' else u') = (if p then b else u).block := by
  rw [hThen, hElse, apply_ite State.block]

/-- A guarded command commutes with `State.block` when its body does. -/
theorem next_unlessFaulted_block {s b b' t : State} (hBody : b' = b.block)
    (h : (.next (unlessFaulted s b) : Result) = .next t) :
    (.next (unlessFaulted s.block b') : Result) = .next t.block := by
  obtain rfl := Host.Outcome.next.inj h
  exact congrArg _ (ite_eq_block rfl hBody)

/-- A register write commutes with `State.block`. -/
theorem writeCfg_block (r : CfgReg) (v : Word32) (s : State) : writeCfg r v s.block = (writeCfg r v s).block := by
  cases r with
  | ctrl => exact ite_eq_block rfl rfl
  | ron | roff | status | fcmdl | fcmdh => rfl

/-- A register reads the same without the model's own fields. -/
theorem readCfg_block (r : CfgReg) (s : State) : readCfg r s.block = readCfg r s := by
  cases r <;> rfl

/-- A command does the same to the block whatever the model's own fields hold. -/
theorem exec_block {i : Instr} {s t : State} (h : exec i s = .next t) : exec i s.block = .next t.block := by
  cases i with
  | oscStart sym rate =>
    refine next_unlessFaulted_block ?_ h
    rw [toneOf_block]
    cases toneOf sym s with
    | none => rfl
    | some p => exact ite_eq_block rfl rfl
  | oscNext =>
    refine next_unlessFaulted_block ?_ h
    rw [State.block_osc]
    cases s.osc with
    | none => rfl
    | some o => exact ite_eq_block rfl rfl
  | envStart uo n => exact next_unlessFaulted_block (ite_eq_block rfl rfl) h
  | envNext =>
    refine next_unlessFaulted_block ?_ h
    rw [State.block_env]
    cases s.env with
    | none => rfl
    | some e => exact ite_eq_block rfl rfl
  | nseNext | rngDraw | rngSeed seed => exact next_unlessFaulted_block rfl h
  | qnt depth =>
    refine next_unlessFaulted_block (ite_eq_block rfl ?_) h
    rw [State.block_fin]
    cases s.fin <;> rfl
  | wrc reg v =>
    refine next_unlessFaulted_block ?_ h
    cases cfgReg reg with
    | none => rfl
    | some r => exact writeCfg_block r v s
  | rdc reg =>
    cases hReg : cfgReg reg with
    | none =>
      simp only [exec, execRdc, hReg] at h ⊢
      exact next_unlessFaulted_block rfl h
    | some r =>
      rw [exec_rdc_of_assigned hReg] at h ⊢
      obtain rfl := Host.Outcome.next.inj h
      rw [readCfg_block]
      rfl
  | clr =>
    obtain rfl := Host.Outcome.next.inj h
    rfl

/-- A presented command commutes with `State.block`. -/
theorem afterCommand_block (c : Presented) (s : State) : afterCommand c s.block = (afterCommand c s).block :=
  afterCommand_of_exec (exec_block (exec_eq_afterCommand c s))

/-- The responses of a run do not depend on the model's own fields. -/
theorem transcript_block (cs : List Presented) (s : State) : transcript cs s.block = transcript cs s := by
  induction cs generalizing s with
  | nil => rfl
  | cons c cs ih => rw [transcript, transcript, afterCommand_block, ih, State.block_rsp]

/-! ## The initialisation of the block -/

/-- The block after `CLR`, the three register writes and the seed: nothing of the state before them is left but the
Tone Table and the model's own fields (rule R251). -/
def initialised (c a b seed : Word32) (f : FloatIn) (s : State) : State :=
  respondOk
    { State.reset with
      rng := Config.rngSeed seed
      ctrl := c
      ron := a
      roff := b
      tones := s.tones
      cmd := encode (.rngSeed seed)
      fin := f
      inbox := s.inbox
      resets := s.resets }

/-- `WRC CTRL` of a legal value outside fault state (rules R31, R176). -/
theorem exec_wrc_ctrl_of_legal {v : Word32} {s : State} (hReady : s.fault = false) (hv : v >>> 2 = 0#32) :
    exec (.wrc 0 v) s = .next (respondOk { s with ctrl := v }) := by
  rw [exec_wrc_of_assigned hReady rfl, writeCfg, if_neg (not_not.mpr hv)]

/-- The five commands of the initialisation one after the other (rules R145, R176, R179). -/
theorem afterRun_initialisation {c : Word32} (hc : c >>> 2 = 0#32) (a b seed : Word32) (f : FloatIn) (s : State) :
    afterRun [(.clr, f), (.wrc 0 c, f), (.wrc 1 a, f), (.wrc 2 b, f), (.rngSeed seed, f)] s
      = initialised c a b seed f s := by
  rw [afterRun, afterCommand_of_exec (i := .clr) rfl,
    afterRun, afterCommand_of_exec (exec_wrc_ctrl_of_legal rfl hc),
    afterRun, afterCommand_of_exec (exec_wrc_of_assigned (r := .ron) rfl rfl),
    afterRun, afterCommand_of_exec (exec_wrc_of_assigned (r := .roff) rfl rfl),
    afterRun, afterCommand_of_exec (exec_rngSeed_of_ready seed rfl)]
  rfl

/-- The initialised block is the same from any two states with the same Tone Table. -/
theorem block_initialised_congr {s s' : State} (hTones : s.tones = s'.tones) (c a b seed : Word32) (f : FloatIn) :
    (initialised c a b seed f s).block = (initialised c a b seed f s').block := by
  rw [initialised, initialised, hTones]
  rfl

/-- Settles O52: both states initialise to the same block, and the block alone determines the responses. -/
theorem initialisationDeterminesEverythingAfterIt : Obligations.InitialisationDeterminesEverythingAfterIt := by
  intro s s' c a b seed f cs hTones hc init
  have hInit (u : State) : afterRun init u = initialised c a b seed f u := afterRun_initialisation hc a b seed f u
  have hBlock := block_initialised_congr hTones c a b seed f
  rw [hInit s, hInit s']
  refine ⟨rfl, hBlock, ?_⟩
  rw [← transcript_block, hBlock, transcript_block]

end Sys2Proof.Machine
end

section
/-! Proofs. The laws of the Quantizer's integers: wrapping, full scale, saturation, order and symmetry. -/

namespace Sys2Proof.Machine

/-! ## Wrapping and clamping an integer -/

/-- The `B`-bit numbers are two halves, one on each side of 0. -/
theorem two_pow_eq_two_mul_half {depth : Nat} (h : 1 ≤ depth) : (2 : Int) ^ depth = 2 * 2 ^ (depth - 1) :=
  (mul_pow_sub_one (by omega) 2).symm

/-- Wrapping is the balanced remainder modulo `2^B`: it lies in the signed range and keeps the residue. -/
theorem wrapB_eq_bmod {depth : Nat} (h : 1 ≤ depth) (q : Int) : wrapB depth q = q.bmod (2 ^ depth) := by
  obtain ⟨hLo, hHi⟩ := wrapB_range h q
  have hPow := two_pow_eq_two_mul_half h
  refine ((Int.bmod_eq_iff (by positivity)).mpr ⟨?_, ?_, ?_⟩).symm
  · push_cast; omega
  · push_cast; omega
  · push_cast
    exact dvd_sub_comm.mp (pow_dvd_sub_wrapB depth q)

/-- Wrapping has period `2^B` (rule R162). -/
theorem wrapB_add_two_pow {depth : Nat} (h : 1 ≤ depth) (q : Int) :
    wrapB depth (q + 2 ^ depth) = wrapB depth q := by
  have hPeriod : (q + (2 ^ depth : Nat)).bmod (2 ^ depth) = q.bmod (2 ^ depth) := Int.add_bmod_right ..
  rw [wrapB_eq_bmod h, wrapB_eq_bmod h, ← hPeriod]
  push_cast; rfl

/-- Wrapping changes nothing in the signed range. -/
theorem wrapB_of_mem {depth : Nat} (h : 1 ≤ depth) {q : Int} (hLo : -(2 ^ (depth - 1)) ≤ q)
    (hHi : q ≤ 2 ^ (depth - 1) - 1) : wrapB depth q = q := by
  have hPow := two_pow_eq_two_mul_half h
  rw [wrapB_eq_bmod h]
  exact Int.bmod_eq_of_le_mul_two (by push_cast; omega) (by push_cast; omega)

/-- One above the largest `B`-bit number wraps to the smallest (rule R163). -/
theorem wrapB_half {depth : Nat} (h : 1 ≤ depth) : wrapB depth (2 ^ (depth - 1)) = -(2 ^ (depth - 1)) := by
  rw [wrapB_eq_bmod h]
  exact Int.bmod_eq_neg (by positivity) (by push_cast; exact two_pow_eq_two_mul_half h)

/-- Clamping changes nothing in the signed range. -/
theorem satB_of_mem {depth : Nat} {q : Int} (hLo : -(2 ^ (depth - 1)) ≤ q) (hHi : q ≤ 2 ^ (depth - 1) - 1) :
    satB depth q = q := by
  rw [satB, max_eq_left hLo, min_eq_left hHi]

/-- Clamping gives the largest `B`-bit number from there up. -/
theorem satB_of_max_le {depth : Nat} {q : Int} (h : 2 ^ (depth - 1) - 1 ≤ q) :
    satB depth q = 2 ^ (depth - 1) - 1 :=
  min_eq_right (h.trans (le_max_left _ _))

/-- Clamping gives the smallest `B`-bit number from there down. -/
theorem satB_of_le_min {depth : Nat} {q : Int} (h : q ≤ -(2 ^ (depth - 1))) :
    satB depth q = -(2 ^ (depth - 1)) := by
  have hPos : (0 : Int) < 2 ^ (depth - 1) := by positivity
  rw [satB, max_eq_right h, min_eq_left (by omega)]

/-- Clamping keeps the order. -/
theorem satB_mono (depth : Nat) {q r : Int} (h : q ≤ r) : satB depth q ≤ satB depth r :=
  min_le_min_right _ (max_le_max_right _ h)

/-! ## The scaled sample -/

theorem scaled_intCast (depth : Nat) (z : Int) : scaled depth z = z * 2 ^ (depth - 1) := by
  rw [scaled, ← trunc_intCast (z * 2 ^ (depth - 1))]
  push_cast; rfl

@[simp] theorem scaled_zero (depth : Nat) : scaled depth 0 = 0 := by
  simpa using scaled_intCast depth 0

@[simp] theorem scaled_one (depth : Nat) : scaled depth 1 = 2 ^ (depth - 1) := by
  simpa using scaled_intCast depth 1

@[simp] theorem scaled_neg (depth : Nat) (x : Rat) : scaled depth (-x) = -scaled depth x := by
  rw [scaled, neg_mul, trunc_neg, scaled]

/-- Scaling keeps the order. -/
theorem scaled_mono (depth : Nat) {x y : Rat} (h : x ≤ y) : scaled depth x ≤ scaled depth y :=
  trunc_mono (mul_le_mul_of_nonneg_right h (by positivity))

/-- A sample below 1 scales to at most the largest `B`-bit number: a negative one to at most 0, any other to its
floor. -/
theorem scaled_le_of_lt_one (depth : Nat) {x : Rat} (h : x < 1) : scaled depth x ≤ 2 ^ (depth - 1) - 1 := by
  have hPow : (0 : Rat) < 2 ^ (depth - 1) := by positivity
  rcases le_total 0 x with hx | hx
  · have hFloor : ⌊x * 2 ^ (depth - 1)⌋ < 2 ^ (depth - 1) := by
      rw [Int.floor_lt]; push_cast; exact mul_lt_of_lt_one_left hPow h
    rw [scaled, trunc_of_nonneg (by positivity)]
    omega
  · have hPos : (0 : Int) < 2 ^ (depth - 1) := by positivity
    have hNonpos := scaled_mono depth hx
    rw [scaled_zero] at hNonpos
    omega

/-- A sample of at least −1 scales to at least the smallest `B`-bit number. -/
theorem neg_half_le_scaled (depth : Nat) {x : Rat} (h : -1 ≤ x) : -(2 ^ (depth - 1)) ≤ scaled depth x := by
  simpa using scaled_mono depth h

/-- Rule R164 (b): inside (−1, 1) the scaled sample is at most the largest `B`-bit number in size. -/
theorem abs_scaled_le (depth : Nat) {x : Rat} (hLo : -1 < x) (hHi : x < 1) :
    |scaled depth x| ≤ 2 ^ (depth - 1) - 1 := by
  have hMirror := scaled_le_of_lt_one depth (x := -x) (by linarith)
  rw [scaled_neg] at hMirror
  exact abs_le'.mpr ⟨scaled_le_of_lt_one depth hHi, hMirror⟩

/-! ## The quantized sample -/

/-- From −1 to just below 1 the scaled sample fits, so that neither mode changes it (rule R164 (b)). -/
theorem quantized_eq_scaled (sat : Bool) {depth : Nat} (h : 1 ≤ depth) {x : Rat} (hLo : -1 ≤ x) (hHi : x < 1) :
    quantized sat depth x = scaled depth x := by
  have hMin := neg_half_le_scaled depth hLo
  have hMax := scaled_le_of_lt_one depth hHi
  cases sat with
  | false => exact wrapB_of_mem h hMin hMax
  | true => exact satB_of_mem hMin hMax

/-- Wrap mode on a whole number. -/
theorem quantized_false_intCast (depth : Nat) (z : Int) :
    quantized false depth z = wrapB depth (z * 2 ^ (depth - 1)) := congrArg (wrapB depth) (scaled_intCast depth z)

theorem quantized_neg_one (sat : Bool) {depth : Nat} (h : 1 ≤ depth) :
    quantized sat depth (-1) = -(2 ^ (depth - 1)) := by
  rw [quantized_eq_scaled sat h le_rfl (by norm_num), scaled_neg, scaled_one]

theorem quantized_false_one {depth : Nat} (h : 1 ≤ depth) : quantized false depth 1 = -(2 ^ (depth - 1)) :=
  (congrArg (wrapB depth) (scaled_one depth)).trans (wrapB_half h)

/-- Saturating mode clamps from 1 up (rule R166). -/
theorem quantized_true_of_one_le (depth : Nat) {x : Rat} (h : 1 ≤ x) :
    quantized true depth x = 2 ^ (depth - 1) - 1 := by
  have hScaled := scaled_mono depth h
  rw [scaled_one] at hScaled
  exact satB_of_max_le (by omega)

/-- Saturating mode clamps from −1 down (rule R166). -/
theorem quantized_true_of_le_neg_one (depth : Nat) {x : Rat} (h : x ≤ -1) :
    quantized true depth x = -(2 ^ (depth - 1)) :=
  satB_of_le_min (by simpa using scaled_mono depth h)

/-- Saturating mode keeps the order everywhere (rule R164 (d)). -/
theorem quantized_true_mono (depth : Nat) {x y : Rat} (h : x ≤ y) : quantized true depth x ≤ quantized true depth y :=
  satB_mono depth (scaled_mono depth h)

/-- Settles O38: wrapping is the balanced remainder, which is how a bit vector reads its low bits as a signed
number. -/
theorem wrappingKeepsTheLowBits : Obligations.WrappingKeepsTheLowBits := by
  refine ⟨fun depth q h => ⟨?_, wrapB_add_two_pow h q⟩, ?_, quantized_false_one (by decide), ?_, ?_⟩
  · rw [wrapB_eq_bmod h, BitVec.toInt_ofInt]
  · exact (quantized_false_intCast 16 3).trans (by decide)
  · exact (quantized_false_intCast 16 2).trans (by decide)
  · exact (quantized_false_intCast 16 0).trans (by decide)

/-- Settles O39: −1.0 fits; +1.0 is one above the largest number, which wraps or is clamped. -/
theorem positiveFullScaleWraps : Obligations.PositiveFullScaleWraps := fun depth h _ =>
  ⟨fun sat => quantized_neg_one sat h, quantized_false_one h, quantized_true_of_one_le depth le_rfl⟩

/-- Settles O40: outside (−1, 1) the scaled sample is at or beyond an end of the range, and inside both modes give the
scaled sample. -/
theorem saturatingModeClampsOutsideTheRange : Obligations.SaturatingModeClampsOutsideTheRange := by
  refine ⟨fun depth x h _ => ⟨quantized_true_of_one_le depth, quantized_true_of_le_neg_one depth, ?_⟩, rfl⟩
  intro hLo hHi
  rw [quantized_eq_scaled true h hLo.le hHi, quantized_eq_scaled false h hLo.le hHi]

/-- Settles O41: in [−1, 1) each law is the scaled sample's own. -/
theorem quantizerIntegerLaws : Obligations.QuantizerIntegerLaws := by
  refine ⟨fun sat depth x h hLo hHi => ⟨?noWrap, ?size, ?odd⟩, fun sat depth x y h hLo hLe hHi => ?mono,
    fun depth x y hLe => quantized_true_mono depth hLe, fun sat depth h => ?zero, fun sat x hLo hHi => ?oneBit,
    fun sat => quantized_neg_one sat le_rfl, quantized_false_one le_rfl, quantized_true_of_one_le 1 le_rfl⟩
  case noWrap => exact quantized_eq_scaled sat h hLo.le hHi
  case size =>
    rw [quantized_eq_scaled sat h hLo.le hHi]
    exact abs_scaled_le depth hLo hHi
  case odd =>
    rw [quantized_eq_scaled sat h hLo.le hHi, quantized_eq_scaled sat h (by linarith) (by linarith), scaled_neg]
  case mono =>
    rw [quantized_eq_scaled sat h hLo (by linarith), quantized_eq_scaled sat h (by linarith) hHi]
    exact scaled_mono depth hLe
  case zero => rw [quantized_eq_scaled sat h (by norm_num) (by norm_num), scaled_zero]
  case oneBit =>
    rw [quantized_eq_scaled sat le_rfl hLo.le hHi]
    exact abs_nonpos_iff.mp (abs_scaled_le 1 hLo hHi)

end Sys2Proof.Machine
end

section
/-! Proofs. The control commands in fault state: what is refused there, what `RDC` answers, and what `CLR` leaves. -/

namespace Sys2Proof.Machine

/-! ## Fault state -/

/-- In fault state every command is refused but `CLR` and `RDC` of an assigned index (rules R178, R227). -/
theorem exec_of_faulted {i : Instr} {s : State} (hFault : s.fault = true) (hClr : i ≠ .clr)
    (hRdc : ∀ reg, reg ≤ 5 → i ≠ .rdc reg) : exec i s = .next (refuse s) := by
  rcases exec_cases i s with ⟨-, hRefused⟩ | ⟨hReady, -⟩ | ⟨t, -, hDone⟩
  · exact hRefused
  · exact nomatch hFault.symm.trans hReady
  · cases i with
    | oscStart | oscNext | envStart | envNext | nseNext | rngDraw | rngSeed | qnt | wrc =>
      obtain ⟨hReady, -⟩ := hDone
      exact nomatch hFault.symm.trans hReady
    | rdc reg =>
      obtain ⟨r, hReg, -⟩ := hDone
      have hLe : reg ≤ 5 := not_lt.mp fun h => nomatch hReg.symm.trans (cfgReg_of_gt h)
      exact absurd rfl (hRdc reg hLe)
    | clr => exact absurd rfl hClr

/-- In fault state a word that matches no row is refused (rules R81, R227). -/
theorem present_of_no_row_of_faulted {w : CmdWord} {s : State} (hFault : s.fault = true)
    (h : ∀ r ∈ opcodeRows, w &&& r.mask ≠ r.matchBits) (f : FloatIn) :
    present w f s = .next (refuse (latch w f s)) := by
  rw [present_of_no_row h, illegalWord, unlessFaulted_of_faulted (s := latch w f s) hFault]

/-! ## `CLR` -/

/-- With no instance and outside fault state `STATUS` reads 0 (rule R34). -/
theorem statusWord_eq_zero {s : State} (hOsc : s.osc = none) (hEnv : s.env = none) (hReady : s.fault = false) :
    statusWord s = 0#32 := by
  simp [statusWord, causeField, oscOvf, envEnd, envV, oscV, hOsc, hEnv, hReady]

/-- Settles O45: `CLR` is the return from a fault, which leaves no instance and no fault for `STATUS` to show. -/
theorem clrClearsTheInstancesAndTheFaultRecord : Obligations.ClrClearsTheInstancesAndTheFaultRecord := fun s =>
  ⟨respondOk (returnFromFault s), rfl, statusWord_eq_zero rfl rfl rfl, rfl⟩

/-! ## `RDC` -/

/-- The register an index names reads as the state's own storage for it (rules R30, R177). -/
theorem readCfg_of_index {reg : Nat} {r : CfgReg} (hReg : cfgReg reg = some r) (s : State) :
    (reg = 0 → readCfg r s = ctrlWord s) ∧ (reg = 1 → readCfg r s = s.ron) ∧ (reg = 2 → readCfg r s = s.roff) ∧
      (reg = 3 → readCfg r s = statusWord s) ∧ (reg = 4 → readCfg r s = s.fcmdl) ∧
      (reg = 5 → readCfg r s = s.fcmdh) := by
  refine ⟨?_, ?_, ?_, ?_, ?_, ?_⟩ <;> rintro rfl <;> cases hReg <;> rfl

/-- The mode flags of `CTRL` as one field: they read as stored (rule R31). -/
theorem ctrlWord_modes (s : State) : (ctrlWord s).extractLsb' 0 2 = s.ctrl.extractLsb' 0 2 := by
  rw [ctrlWord, BitVec.extractLsb'_and]
  exact BitVec.and_allOnes

/-- Settles O14: `RDC` of an assigned index and `CLR` do not ask for the fault, and everything else does. -/
theorem rdcAndClrAreTheTwoThatRunInFaultState : Obligations.RdcAndClrAreTheTwoThatRunInFaultState := by
  refine ⟨fun reg s _ hLe => ?assigned, fun reg s hFault hGt => ?unassigned, fun s _ => ?clr,
    fun i s hFault hClr hRdc => exec_of_faulted hFault hClr fun reg _ => hRdc reg,
    fun w f s hFault hNone => present_of_no_row_of_faulted hFault hNone f⟩
  case assigned =>
    obtain ⟨r, hReg⟩ := cfgReg_of_le hLe
    obtain ⟨hCtrl, hOthers⟩ := readCfg_of_index hReg s
    refine ⟨readCfg r s, exec_rdc_of_assigned hReg s, fun h => ?_, hOthers⟩
    obtain ⟨-, -, hReserved⟩ := ctrlWord_bits s
    rw [hCtrl h]
    exact ⟨ctrlWord_modes s, hReserved⟩
  case unassigned =>
    refine exec_of_faulted hFault nofun fun reg' hLe h => ?_
    obtain rfl := Instr.rdc.inj h
    exact absurd hLe (not_le.mpr hGt)
  case clr =>
    obtain ⟨t, hExec, -, rfl⟩ := clrClearsTheInstancesAndTheFaultRecord s
    exact ⟨_, hExec, rfl, rfl⟩

end Sys2Proof.Machine
end

section
/-! Proofs. The reference host: its mixing weights, its segments, and the run of one digit segment on the block. -/

namespace Sys2Proof.Machine

/-! ## The weights and the segments -/

/-- The weights of a ratio that is not negative are not negative (rule R197). -/
theorem RefHost.weights_nonneg {x : Rat} (h : 0 ≤ x) : 0 ≤ kSignal (.ratio x) ∧ 0 ≤ kNoise (.ratio x) :=
  ⟨div_nonneg h (by linarith), div_nonneg zero_le_one (by linarith)⟩

/-- The weights of a ratio that is not negative share its denominator, so they add up to 1 (rule R197). -/
theorem RefHost.kSignal_add_kNoise {x : Rat} (h : 0 ≤ x) : kSignal (.ratio x) + kNoise (.ratio x) = 1 := by
  have hDenominator : x + 1 ≠ 0 := by linarith
  rw [kSignal, kNoise, ← add_div, div_self hDenominator]

/-- Each digit adds two segments to the first gap (rule R200). -/
theorem RefHost.length_segments (n : Nat) : (segments n).length = 2 * n + 1 := by
  induction n with
  | zero => rfl
  | succ n ih =>
    rw [segments, List.length_append, ih]
    rfl

/-- A sequence of segments begins with a gap, since digits are added at its end (rule R200). -/
theorem RefHost.head?_segments (n : Nat) : (segments n).head? = some .gap := by
  induction n with
  | zero => rfl
  | succ n ih => rw [segments, List.head?_append, ih, Option.some_or]

/-- A sequence of segments ends with a gap, since each digit added has one after it (rule R200). -/
theorem RefHost.getLast?_segments (n : Nat) : (segments n).getLast? = some .gap := by
  cases n with
  | zero => rfl
  | succ n => exact List.getLast?_append_of_ne_nil _ (List.cons_ne_nil _ _)

/-- Settles O54: weights that are not negative and add up to 1 are at most 1, and the segments are counted and begin
and end as `segments` adds them. -/
theorem hostWeightsAndSegmentsKeepTheirInvariants : Obligations.HostWeightsAndSegmentsKeepTheirInvariants := by
  refine ⟨fun x hx => ?_, rfl, rfl, fun n =>
    ⟨RefHost.length_segments n, RefHost.head?_segments n, RefHost.getLast?_segments n⟩⟩
  obtain ⟨hSignal, hNoise⟩ := RefHost.weights_nonneg hx
  have hSum := RefHost.kSignal_add_kNoise hx
  exact ⟨hSignal, by linarith, hNoise, by linarith, hSum⟩

/-! ## The pulls of a digit segment -/

/-- The commands of a list as the host presents them, each with the same float beside it (rule R28). -/
abbrev presentedWith (f : FloatIn) (is : List Instr) : List Presented := is.map fun i => (i, f)

/-- The pulls of a digit segment are the two `NEXT` commands and no others (rule R192). -/
theorem RefHost.mem_pullPairs {i : Instr} {m : Nat} (h : i ∈ pullPairs m) : i = .oscNext ∨ i = .envNext := by
  induction m with
  | zero => exact absurd h List.not_mem_nil
  | succ m ih =>
    rcases List.mem_cons.mp h with hOsc | h
    · exact .inl hOsc
    rcases List.mem_cons.mp h with hEnv | h
    · exact .inr hEnv
    · exact ih h

/-- `m` pairs of pulls hold each of the two `NEXT` commands `m` times (rule R192). -/
theorem RefHost.countP_pullPairs (f : FloatIn) (m : Nat) :
    (presentedWith f (pullPairs m)).countP (fun c => c.1 == .oscNext) = m ∧
      (presentedWith f (pullPairs m)).countP (fun c => c.1 == .envNext) = m := by
  induction m with
  | zero => exact ⟨rfl, rfl⟩
  | succ m ih =>
    obtain ⟨hOsc, hEnv⟩ := ih
    simp [pullPairs, hOsc, hEnv]

/-- The pulls of a digit segment keep both instances (rules R106, R127). -/
theorem keeps_of_mem_pullPairs {f : FloatIn} {m : Nat} {c : Presented}
    (h : c ∈ presentedWith f (RefHost.pullPairs m)) :
    endsOscillator c.1 = false ∧ endsEnvelope c.1 = false := by
  obtain ⟨i, hi, rfl⟩ := List.mem_map.mp h
  rcases RefHost.mem_pullPairs hi with rfl | rfl <;> exact ⟨rfl, rfl⟩

/-- The block outside fault state with an oscillator and an envelope. -/
structure State.Running (s : State) (o : OscInst) (e : EnvInst) : Prop where
  ready : s.fault = false
  osc : s.osc = some o
  env : s.env = some e

/-- `OSC.NEXT` before the index limit advances the oscillator by one (rule R105). -/
theorem State.Running.oscNext {s : State} {o : OscInst} {e : EnvInst} (h : s.Running o e)
    (hIdx : o.n < Config.idxLimit) (f : FloatIn) :
    (afterCommand (.oscNext, f) s).Running { o with n := o.n + 1 } e := by
  rw [afterCommand_of_exec (exec_oscNext_of_ready h.ready h.osc hIdx.ne)]
  exact ⟨h.ready, rfl, h.env⟩

/-- `ENV.NEXT` before the end advances the envelope by one (rule R125). -/
theorem State.Running.envNext {s : State} {o : OscInst} {e : EnvInst} (h : s.Running o e)
    (hIdx : e.k < e.total) (f : FloatIn) :
    (afterCommand (.envNext, f) s).Running o { e with k := e.k + 1 } := by
  rw [afterCommand_of_exec (exec_envNext_of_ready h.ready h.env hIdx.ne)]
  exact ⟨h.ready, h.osc, rfl⟩

/-- `m` pairs of pulls that stay within both ends advance both instances by `m` (rules R106, R127). -/
theorem State.Running.pullPairs {m : Nat} {s : State} {o : OscInst} {e : EnvInst} (h : s.Running o e)
    (hOsc : o.n + m ≤ Config.idxLimit) (hEnv : e.k + m ≤ e.total) (f : FloatIn) :
    (afterRun (presentedWith f (RefHost.pullPairs m)) s).Running
      { o with n := o.n + m } { e with k := e.k + m } := by
  induction m generalizing s o e with
  | zero => exact h
  | succ m ih =>
    have hRest := ih ((h.oscNext (by omega) f).envNext (by omega) f) (by simp only; omega) (by simp only; omega)
    simp only [Nat.add_assoc, Nat.add_comm 1 m] at hRest
    exact hRest

/-- `m` pairs of pulls from a running block answer the samples and the gains from its indices on (rules R106 (b),
R127 (a)). -/
theorem State.Running.responsesTo_pullPairs {m : Nat} {s : State} {o : OscInst} {e : EnvInst} (h : s.Running o e)
    (hOsc : o.n + m ≤ Config.idxLimit) (hEnv : e.k + m ≤ e.total) (f : FloatIn) :
    responsesTo .oscNext (transcript (presentedWith f (RefHost.pullPairs m)) s)
        = (List.range m).map (fun j => some ⟨stOk, o.sampleAt (o.n + j), 0#32⟩) ∧
      responsesTo .envNext (transcript (presentedWith f (RefHost.pullPairs m)) s)
        = (List.range m).map (fun j => some ⟨stOk, gain e (e.k + j), 0#32⟩) := by
  have hEnd := (h.pullPairs hOsc hEnv f).ready
  obtain ⟨hCountOsc, hCountEnv⟩ := RefHost.countP_pullPairs f m
  constructor
  · rw [responsesTo_oscNext h.ready h.osc (fun c hc => (keeps_of_mem_pullPairs hc).1) hEnd, hCountOsc]
  · rw [responsesTo_envNext h.ready h.env (by omega) (fun c hc => (keeps_of_mem_pullPairs hc).2) hEnd, hCountEnv]
    refine List.map_congr_left fun j hj => ?_
    have hBelow : j < m := List.mem_range.mp hj
    rw [EnvInst.answerAt, if_pos (by omega)]

/-! ## A digit segment -/

/-- `ENV.START` with `UO = 0` outside fault state: a roll-off equal to the roll-on has no zero divisor (rules R121,
R129). -/
theorem envStart_afterCommand {s : State} (hReady : s.fault = false) (n : Nat) (f : FloatIn) :
    afterCommand (.envStart false n, f) s
      = respondOk { latch (encode (.envStart false n)) f s with env := some (envCreate false n s) } := by
  refine afterCommand_of_exec (exec_envStart_of_ready hReady fun hZero => ?_)
  obtain ⟨-, hUo, -⟩ := zeroDivisor_iff_registers.mp hZero
  exact Bool.false_ne_true hUo

/-- The two `START` commands of a digit segment leave a running block with both instances at index 0 (rules R103,
R121). -/
theorem running_of_starts {sym : Byte} {rate : Nat} {s : State} (hReady : s.fault = false)
    (hSym : sym ∈ RefHost.alphabet) (hRate : 0 < rate) (n : Nat) (f : FloatIn) :
    ∃ o, o.n = 0 ∧ (afterCommand (.envStart false n, f) (afterCommand (.oscStart sym rate, f) s)).Running o
      (envCreate false n s) := by
  obtain ⟨p, hTone⟩ := toneOf_of_mem_alphabet hSym (latch (encode (.oscStart sym rate)) f s)
  rw [afterCommand_of_exec (exec_oscStart_of_tone hReady hTone hRate.ne'), envStart_afterCommand]
  · exact ⟨_, rfl, hReady, rfl, rfl⟩
  · exact hReady

/-- The answers of a digit segment to a command that is neither `START` are those of its pulls (rule R192). -/
theorem responsesTo_digitSegment {i : Instr} {sym : Byte} {rate n : Nat} (hOsc : .oscStart sym rate ≠ i)
    (hEnv : .envStart false n ≠ i) (f : FloatIn) (s : State) :
    responsesTo i (transcript (presentedWith f (RefHost.digitSegment sym rate n)) s)
      = responsesTo i (transcript (presentedWith f (RefHost.pullPairs n))
          (afterCommand (.envStart false n, f) (afterCommand (.oscStart sym rate, f) s))) :=
  (responsesTo_transcript_cons_of_ne hOsc _ _).trans (responsesTo_transcript_cons_of_ne hEnv _ _)

/-- Settles O53: the two `START` commands leave a running block at index 0, and the pulls run from there to the end. -/
theorem aDigitSegmentRunsToItsEnd : Obligations.ADigitSegmentRunsToItsEnd := by
  intro sym rate n f s hSym hRate hn hReady cs
  obtain ⟨o, hFresh, hStarted⟩ := running_of_starts hReady hSym hRate n f
  have hOsc : o.n + n ≤ Config.idxLimit := by rw [hFresh, Config.idxLimit]; omega
  have hEnv : (envCreate false n s).k + n ≤ (envCreate false n s).total := (Nat.zero_add n).le
  obtain ⟨hEnd, hOscEnd, hEnvEnd⟩ := hStarted.pullPairs hOsc hEnv f
  obtain ⟨hSamples, hGains⟩ := hStarted.responsesTo_pullPairs hOsc hEnv f
  simp only [hFresh, envCreate, Nat.zero_add] at hOscEnd hEnvEnd hSamples hGains
  exact ⟨_, _, hEnd, hOscEnd, hEnvEnd, rfl, rfl, rfl, rfl,
    (responsesTo_digitSegment (i := .oscNext) nofun nofun f s).trans hSamples,
    (responsesTo_digitSegment (i := .envNext) nofun nofun f s).trans hGains⟩

end Sys2Proof.Machine
end

section
/-! Proofs. Exceptions: every presented word is answered, what a fault writes, and fault state until `CLR` or `RST`. -/

namespace Sys2Proof.Machine

/-! ## What a presented word can leave -/

/-- A step with no event left holds the state (rule R242). -/
theorem step_of_nothing {s : State} (h : s.inbox = []) : step s = .next s := by
  simp [step, h]

/-- Settles O7: the step's own case for an empty inbox. -/
theorem stepWithNothingPresentedHoldsTheState : Obligations.StepWithNothingPresentedHoldsTheState := fun _ h =>
  step_of_nothing h

/-- A presented word is a command, executed on the latched state, or an illegal word (rules R74, R81). -/
theorem present_cases (w : CmdWord) (f : FloatIn) (s : State) :
    (∃ i, decode w = .ok i ∧ present w f s = exec i (latch w f s)) ∨
      present w f s = .next (illegalWord (latch w f s)) := by
  cases hDecode : decode w with
  | ok i => exact .inl ⟨i, rfl, present_of_decode hDecode f s⟩
  | error e => exact .inr (by rw [present, hDecode])

/-- An illegal word is refused in fault state (rules R81, R227). -/
theorem illegalWord_of_faulted {s : State} (hFault : s.fault = true) : illegalWord s = refuse s :=
  unlessFaulted_of_faulted hFault _

/-- Everything a presented word can do: it completes, and it is refused, or faults, or runs to its command's own end. -/
theorem present_outcome (w : CmdWord) (f : FloatIn) (s : State) :
    ∃ t, present w f s = .next t ∧
      ((s.fault = true ∧ t = refuse (latch w f s)) ∨ (s.fault = false ∧ ∃ c, t = raise c (latch w f s)) ∨
        ∃ i, Completed i (latch w f s) t) := by
  rcases present_cases w f s with ⟨i, -, hExec⟩ | hIllegal
  · rw [hExec]
    rcases exec_cases i (latch w f s) with ⟨hFault, h⟩ | ⟨hReady, c, h⟩ | ⟨t, h, hDone⟩
    · exact ⟨_, h, .inl ⟨hFault, rfl⟩⟩
    · exact ⟨_, h, .inr (.inl ⟨hReady, c, rfl⟩)⟩
    · exact ⟨t, h, .inr (.inr ⟨i, hDone⟩)⟩
  · refine ⟨_, hIllegal, ?_⟩
    cases hFault : s.fault with
    | true => exact .inl ⟨rfl, illegalWord_of_faulted (s := latch w f s) hFault⟩
    | false => exact .inr (.inl ⟨rfl, .illegal, unlessFaulted_of_ready (s := latch w f s) hFault _⟩)

/-- A command that runs to its own end answers `OK` or `END` and takes no event (rules R29, R56). -/
theorem Completed.answers {i : Instr} {s t : State} (hDone : Completed i s t) :
    ∃ r, t.rsp = some r ∧ (r.st = stOk ∨ r.st = stEnd) ∧ t.inbox = s.inbox := by
  cases i with
  | oscStart sym rate =>
    obtain ⟨-, p, -, -, rfl⟩ := hDone
    exact ⟨_, rfl, .inl rfl, rfl⟩
  | oscNext =>
    obtain ⟨-, o, -, -, rfl⟩ := hDone
    exact ⟨_, rfl, .inl rfl, rfl⟩
  | envNext =>
    obtain ⟨-, e, -, ⟨-, rfl⟩ | ⟨-, rfl⟩⟩ := hDone
    · exact ⟨_, rfl, .inr rfl, rfl⟩
    · exact ⟨_, rfl, .inl rfl, rfl⟩
  | envStart uo n =>
    obtain ⟨-, -, rfl⟩ := hDone
    exact ⟨_, rfl, .inl rfl, rfl⟩
  | nseNext | rngDraw | rngSeed seed =>
    obtain ⟨-, rfl⟩ := hDone
    exact ⟨_, rfl, .inl rfl, rfl⟩
  | qnt depth =>
    obtain ⟨-, x, -, -, -, rfl⟩ := hDone
    exact ⟨_, rfl, .inl rfl, rfl⟩
  | wrc reg v => obtain ⟨-, ⟨-, -, rfl⟩ | ⟨-, rfl⟩ | ⟨-, rfl⟩⟩ := hDone <;> exact ⟨_, rfl, .inl rfl, rfl⟩
  | rdc reg =>
    obtain ⟨r, -, rfl⟩ := hDone
    exact ⟨_, rfl, .inl rfl, rfl⟩
  | clr =>
    obtain rfl := hDone
    exact ⟨_, rfl, .inl rfl, rfl⟩

/-- Settles O9: a refusal, a fault and a command's own end each carry a response with a known code. -/
theorem everyCommandResponds : Obligations.EveryCommandResponds := by
  intro s w f rest hInbox
  rw [step_of_command hInbox]
  obtain ⟨t, hPresent, hLeft⟩ := present_outcome w f (takeEvent rest s)
  rcases hLeft with ⟨-, rfl⟩ | ⟨-, c, rfl⟩ | ⟨i, hDone⟩
  · exact ⟨_, _, hPresent, rfl, .inr (.inr (.inr rfl)), rfl⟩
  · exact ⟨_, _, hPresent, rfl, isStatusCode_code c, rfl⟩
  · obtain ⟨r, hRsp, hStatus, hRest⟩ := hDone.answers
    exact ⟨t, r, hPresent, hRsp, hStatus.imp_right .inl, hRest⟩

/-! ## Only the ports change in fault state -/

/-- Nothing but the ports `CMD` and `RSP` differs between the two states (rule R28). -/
def OnlyPortsDiffer (s t : State) : Prop :=
  ∃ (w : CmdWord) (f : FloatIn) (r : Option Response), t = { s with cmd := w, fin := f, rsp := r }

theorem OnlyPortsDiffer.refl (s : State) : OnlyPortsDiffer s s := ⟨_, _, _, rfl⟩

theorem OnlyPortsDiffer.trans {s t u : State} (h : OnlyPortsDiffer s t) (h' : OnlyPortsDiffer t u) :
    OnlyPortsDiffer s u := by
  obtain ⟨_, _, _, rfl⟩ := h
  obtain ⟨w, f, r, rfl⟩ := h'
  exact ⟨w, f, r, rfl⟩

/-- A latched word and its response are on the ports (rules R28, R29). -/
theorem onlyPortsDiffer_respond_latch (st : BitVec 4) (y : Sample) (v : Word32) (w : CmdWord) (f : FloatIn)
    (s : State) : OnlyPortsDiffer s (respond st y v (latch w f s)) := ⟨_, _, _, rfl⟩

/-- A command other than `CLR` changes nothing but the ports in fault state: it is refused, or it is an `RDC` and
answers its register (rules R178, R227). -/
theorem onlyPortsDiffer_of_exec {i : Instr} {w : CmdWord} {f : FloatIn} {s t : State} (hFault : s.fault = true)
    (hClr : i ≠ .clr) (h : exec i (latch w f s) = .next t) : OnlyPortsDiffer s t := by
  by_cases hRdc : ∃ reg ≤ 5, i = .rdc reg
  · obtain ⟨reg, hLe, rfl⟩ := hRdc
    obtain ⟨r, hReg⟩ := cfgReg_of_le hLe
    obtain rfl := Host.Outcome.next.inj ((exec_rdc_of_assigned hReg _).symm.trans h)
    exact onlyPortsDiffer_respond_latch ..
  · have hRefused := exec_of_faulted (s := latch w f s) hFault hClr fun reg hLe hEq => hRdc ⟨reg, hLe, hEq⟩
    obtain rfl := Host.Outcome.next.inj (hRefused.symm.trans h)
    exact onlyPortsDiffer_respond_latch ..

/-- A presented word other than `CLR` changes nothing but the ports in fault state (rule R227). -/
theorem onlyPortsDiffer_of_present {w : CmdWord} {f : FloatIn} {s t : State} (hFault : s.fault = true)
    (hClr : w ≠ encode .clr) (h : present w f s = .next t) : OnlyPortsDiffer s t := by
  rcases present_cases w f s with ⟨i, hDecode, hExec⟩ | hIllegal
  · refine onlyPortsDiffer_of_exec hFault ?_ (hExec.symm.trans h)
    rintro rfl
    exact hClr (encode_of_decode hDecode).symm
  · obtain rfl := Host.Outcome.next.inj (hIllegal.symm.trans h)
    rw [illegalWord_of_faulted (s := latch w f s) hFault]
    exact onlyPortsDiffer_respond_latch ..

/-- A presented `CLR` returns from the fault (rules R179, R228). -/
theorem present_encode_clr (f : FloatIn) (s : State) :
    present (encode .clr) f s = .next (respondOk (returnFromFault (latch (encode .clr) f s))) :=
  present_of_decode (decode_encode rfl) f s

/-- Settles O11: of a word's outcomes only a fault answers a fault code, and its effect is fault entry; in fault state
all but `CLR` leave the record. -/
theorem aFaultWritesItsRecordAndNothingElse : Obligations.AFaultWritesItsRecordAndNothingElse := by
  refine ⟨fun w f s t r hPresent hRsp hCode => ?_, fun w f s t hPresent hFault hStays => ?_⟩
  · obtain ⟨u, hOutcome, hLeft⟩ := present_outcome w f s
    obtain rfl := Host.Outcome.next.inj (hPresent.symm.trans hOutcome)
    rcases hLeft with ⟨-, rfl⟩ | ⟨hReady, c, rfl⟩ | ⟨i, hDone⟩
    · obtain rfl := Option.some.inj hRsp
      exact absurd hCode (by decide)
    · obtain rfl := Option.some.inj hRsp
      exact ⟨hReady, raise_eq_faultEntered c _⟩
    · obtain ⟨r', hRsp', hStatus, -⟩ := hDone.answers
      obtain rfl := Option.some.inj (hRsp.symm.trans hRsp')
      rcases hStatus with hSt | hSt <;> exact absurd (hSt ▸ hCode) (by decide)
  · by_cases hClr : w = encode .clr
    · subst hClr
      obtain rfl := Host.Outcome.next.inj ((present_encode_clr f s).symm.trans hPresent)
      exact absurd hStays Bool.false_ne_true
    · obtain ⟨_, _, _, rfl⟩ := onlyPortsDiffer_of_present hFault hClr hPresent
      exact ⟨rfl, rfl, rfl⟩

/-- In fault state a word that is neither `CLR` nor `RDC` of an assigned register is refused (rule R227). -/
theorem present_of_faulted {w : CmdWord} {s : State} (hFault : s.fault = true) (hClr : w ≠ encode .clr)
    (hRdc : ∀ reg, reg ≤ 5 → w ≠ encode (.rdc reg)) (f : FloatIn) :
    present w f s = .next (refuse (latch w f s)) := by
  rcases present_cases w f s with ⟨i, hDecode, hExec⟩ | hIllegal
  · obtain rfl := encode_of_decode hDecode
    rw [hExec]
    exact exec_of_faulted hFault (fun h => hClr (congrArg encode h)) fun reg hLe h => hRdc reg hLe (congrArg encode h)
  · rw [hIllegal, illegalWord_of_faulted (s := latch w f s) hFault]

/-- Settles O12: such a word is refused; a step that holds the state or presents a word other than `CLR` keeps the
fault flag. -/
theorem faultStateRefusesAllButRdcAndClr : Obligations.FaultStateRefusesAllButRdcAndClr := by
  refine ⟨fun w f s hFault hClr hRdc => present_of_faulted hFault hClr hRdc f, fun s t hFault hStep hLeft => ?_⟩
  cases hInbox : s.inbox with
  | nil =>
    obtain rfl := Host.Outcome.next.inj ((step_of_nothing hInbox).symm.trans hStep)
    exact nomatch hFault.symm.trans hLeft
  | cons e rest =>
    cases e with
    | command w f =>
      by_cases hClr : w = encode .clr
      · exact .inl ⟨f, rest, by rw [hClr]⟩
      · rw [step_of_command hInbox] at hStep
        obtain ⟨_, _, _, rfl⟩ := onlyPortsDiffer_of_present (s := takeEvent rest s) hFault hClr hStep
        exact nomatch hFault.symm.trans hLeft
    | assertReset => exact .inr ⟨rest, rfl⟩

/-! ## A run from fault state -/

/-- A run without `CLR` changes nothing but the ports in fault state (rules R227, R261). -/
theorem onlyPortsDiffer_afterRun {cs : List Presented} (hClr : ∀ c ∈ cs, c.1 ≠ .clr) {s : State}
    (hFault : s.fault = true) : OnlyPortsDiffer s (afterRun cs s) := by
  induction cs generalizing s with
  | nil => exact .refl s
  | cons c cs ih =>
    obtain ⟨hHead, hTail⟩ := List.forall_mem_cons.mp hClr
    have hExec := exec_eq_afterCommand c s
    exact (onlyPortsDiffer_of_exec hFault hHead hExec).trans (ih hTail (fault_of_exec hExec hHead hFault))

/-- A run without `CLR` from fault state answers `FAULTED` to all but `RDC` of an assigned register (rule R227). -/
theorem rsp_of_mem_transcript_of_faulted {cs : List Presented} (hClr : ∀ c ∈ cs, c.1 ≠ .clr) {s : State}
    (hFault : s.fault = true) {p : Instr × Option Response} (hMem : p ∈ transcript cs s)
    (hRdc : ∀ reg, reg ≤ 5 → p.1 ≠ .rdc reg) : p.2 = some ⟨stFaulted, Sample.ofRat 0, 0#32⟩ := by
  induction cs generalizing s with
  | nil => exact nomatch hMem
  | cons c cs ih =>
    obtain ⟨hHead, hTail⟩ := List.forall_mem_cons.mp hClr
    have hExec := exec_eq_afterCommand c s
    rcases List.mem_cons.mp hMem with rfl | hMem
    · have hRefused := exec_of_faulted (s := latch (encode c.1) c.2 s) hFault hHead hRdc
      exact congrArg State.rsp (Host.Outcome.next.inj (hExec.symm.trans hRefused))
    · exact ih hTail (fault_of_exec hExec hHead hFault) hMem

/-- Settles O13: along the run only the ports differ, and every answer but an `RDC`'s is the refusal. -/
theorem nothingHappensAfterAFaultUntilClr : Obligations.NothingHappensAfterAFaultUntilClr := by
  refine fun cs s hFault hClr => ⟨?_, fun p hMem hRdc => rsp_of_mem_transcript_of_faulted hClr hFault hMem hRdc⟩
  obtain ⟨_, _, _, hRun⟩ := onlyPortsDiffer_afterRun hClr hFault
  rw [hRun]

end Sys2Proof.Machine
end
